-- ==== Sys2Proof/Word.lean ====
section
/-! DEFINITION. The widths of the machine: the byte of memory and of a V register, the 16-bit word of
an instruction, of `pc` and of `I`, and the 4-bit index that names a register, a key or a sprite height. -/

namespace Sys2Proof

/-- A byte: a memory cell (R60), a general register (R20), a timer (R26, R27). -/
abbrev Byte := BitVec 8

/-- A 16-bit word: an instruction (R80), `I` (R22), `pc` (R23), a stack slot (R24). -/
abbrev Word := BitVec 16

/-- A number 0..15: a register index (R83), a key code (R28) or a sprite height (R84). -/
abbrev Hex := Fin 16

end Sys2Proof
end

