-- ==== Sys2Proof/Syntax.lean ====
section
/-! DEFINITION. The instructions: one constructor per row of 30_encoding.md R88 and of
spec/opcode_table.json, in the table's order, with the variant names that R88 suggests. Operands are
those of R83 to R87: x, y register indices, n a sprite height, kk a byte, nnn a 12-bit address. -/

namespace Sys2Proof

inductive Instr where
  /-- CLS, `00E0` (R251). -/
  | clearScreen
  /-- RET, `00EE` (R152). -/
  | ret
  /-- SYS nnn, `0nnn` other than `00E0` and `00EE` (R151). -/
  | sysCall (nnn : BitVec 12)
  /-- JP nnn, `1nnn` (R153). -/
  | jump (nnn : BitVec 12)
  /-- CALL nnn, `2nnn` (R154). -/
  | call (nnn : BitVec 12)
  /-- SE Vx, kk, `3xkk` (R155). -/
  | skipEqImm (x : Hex) (kk : Byte)
  /-- SNE Vx, kk, `4xkk` (R156). -/
  | skipNeImm (x : Hex) (kk : Byte)
  /-- SE Vx, Vy, `5xy0` (R157). -/
  | skipEqReg (x y : Hex)
  /-- LD Vx, kk, `6xkk` (R181). -/
  | loadImm (x : Hex) (kk : Byte)
  /-- ADD Vx, kk, `7xkk` (R182). -/
  | addImm (x : Hex) (kk : Byte)
  /-- LD Vx, Vy, `8xy0` (R183). -/
  | move (x y : Hex)
  /-- OR Vx, Vy, `8xy1` (R185). -/
  | orReg (x y : Hex)
  /-- AND Vx, Vy, `8xy2` (R186). -/
  | andReg (x y : Hex)
  /-- XOR Vx, Vy, `8xy3` (R187). -/
  | xorReg (x y : Hex)
  /-- ADD Vx, Vy, `8xy4` (R188). -/
  | addReg (x y : Hex)
  /-- SUB Vx, Vy, `8xy5` (R189). -/
  | sub (x y : Hex)
  /-- SHR Vx, Vy, `8xy6` (R190). -/
  | shiftRight (x y : Hex)
  /-- SUBN Vx, Vy, `8xy7` (R191). -/
  | subReverse (x y : Hex)
  /-- SHL Vx, Vy, `8xyE` (R192). -/
  | shiftLeft (x y : Hex)
  /-- SNE Vx, Vy, `9xy0` (R158). -/
  | skipNeReg (x y : Hex)
  /-- LD I, nnn, `Annn` (R222). -/
  | loadIndex (nnn : BitVec 12)
  /-- JP V0, nnn, `Bnnn` (R159). -/
  | jumpOffset (nnn : BitVec 12)
  /-- RND Vx, kk, `Cxkk` (R194). -/
  | random (x : Hex) (kk : Byte)
  /-- DRW Vx, Vy, n, `Dxyn` (R252). -/
  | draw (x y n : Hex)
  /-- SKP Vx, `Ex9E` (R280). -/
  | skipKeyPressed (x : Hex)
  /-- SKNP Vx, `ExA1` (R281). -/
  | skipKeyNotPressed (x : Hex)
  /-- LD Vx, DT, `Fx07` (R283). -/
  | loadDelay (x : Hex)
  /-- LD Vx, K, `Fx0A` (R282). -/
  | waitKey (x : Hex)
  /-- LD DT, Vx, `Fx15` (R284). -/
  | setDelay (x : Hex)
  /-- LD ST, Vx, `Fx18` (R285). -/
  | setSound (x : Hex)
  /-- ADD I, Vx, `Fx1E` (R223). -/
  | addIndex (x : Hex)
  /-- LD F, Vx, `Fx29` (R224). -/
  | loadGlyph (x : Hex)
  /-- LD B, Vx, `Fx33` (R225). -/
  | storeBcd (x : Hex)
  /-- LD [I], Vx, `Fx55` (R226). -/
  | storeRegisters (x : Hex)
  /-- LD Vx, [I], `Fx65` (R227). -/
  | loadRegisters (x : Hex)
  deriving DecidableEq, Repr

end Sys2Proof
end

