-- ==== Sys2Proof/WellFormed.lean ====
section
/-! DEFINITION. Which terms of Instr some word decodes to. The operand types bound every field, so the
one check is SYS's exclusion (30_encoding.md R82, R88 row 3): `00E0` is CLS and `00EE` is RET. -/

namespace Sys2Proof

/-- R82, R88 row 3: SYS nnn exists only for words that are neither `0x00E0` nor `0x00EE`. -/
def Instr.wellFormed : Instr → Bool
  | .sysCall nnn => nnn != 0x0E0#12 && nnn != 0x0EE#12
  | .clearScreen | .ret | .jump _ | .call _ | .skipEqImm _ _ | .skipNeImm _ _ | .skipEqReg _ _
  | .loadImm _ _ | .addImm _ _ | .move _ _ | .orReg _ _ | .andReg _ _ | .xorReg _ _ | .addReg _ _
  | .sub _ _ | .shiftRight _ _ | .subReverse _ _ | .shiftLeft _ _ | .skipNeReg _ _ | .loadIndex _
  | .jumpOffset _ | .random _ _ | .draw _ _ _ | .skipKeyPressed _ | .skipKeyNotPressed _
  | .loadDelay _ | .waitKey _ | .setDelay _ | .setSound _ | .addIndex _ | .loadGlyph _ | .storeBcd _
  | .storeRegisters _ | .loadRegisters _ => true

end Sys2Proof
end

