-- ==== Sys2Proof/Decode.lean ====
section
/-! DEFINITION. The decoder (30_encoding.md R81 to R95), total on any bytes, rejecting by name; after it
the encoder, written from the same table R88; and the opcode table's masks and matches. -/

namespace Sys2Proof

/-- R81: `decode : Word16 -> Instruction ⊎ DecodeFailure`. -/
inductive DecodeResult where
  | instr (i : Instr)
  | decodeFailure
  deriving DecidableEq, Repr

/-- Why a byte sequence gives no instruction. -/
inductive DecodeReject where
  /-- The word is one of R95's. -/
  | decodeFailure (w : Word)
  /-- Fewer than the two bytes every instruction has (R99). -/
  | truncated
  deriving DecidableEq, Repr

/-- The nibble A = w[15:12], the opcode family (R80). -/
def nibbleA (w : Word) : BitVec 4 := w.extractLsb' 12 4

/-- The nibble D = w[3:0] (R80). -/
def nibbleD (w : Word) : BitVec 4 := w.extractLsb' 0 4

/-- x = w[11:8] (R83). -/
def fieldX (w : Word) : Hex := (w.extractLsb' 8 4).toFin

/-- y = w[7:4] (R83). -/
def fieldY (w : Word) : Hex := (w.extractLsb' 4 4).toFin

/-- n = w[3:0] (R84). -/
def fieldN (w : Word) : Hex := (w.extractLsb' 0 4).toFin

/-- kk = w[7:0] (R85). -/
def fieldKk (w : Word) : Byte := w.extractLsb' 0 8

/-- nnn = w[11:0] (R86). -/
def fieldNnn (w : Word) : BitVec 12 := w.extractLsb' 0 12

/-- Family 8: the second switch, on D (R91). -/
def decodeFamily8 (w : Word) : DecodeResult :=
  match nibbleD w with
  | 0x0#4 => .instr (.move (fieldX w) (fieldY w))
  | 0x1#4 => .instr (.orReg (fieldX w) (fieldY w))
  | 0x2#4 => .instr (.andReg (fieldX w) (fieldY w))
  | 0x3#4 => .instr (.xorReg (fieldX w) (fieldY w))
  | 0x4#4 => .instr (.addReg (fieldX w) (fieldY w))
  | 0x5#4 => .instr (.sub (fieldX w) (fieldY w))
  | 0x6#4 => .instr (.shiftRight (fieldX w) (fieldY w))
  | 0x7#4 => .instr (.subReverse (fieldX w) (fieldY w))
  | 0xE#4 => .instr (.shiftLeft (fieldX w) (fieldY w))
  | _ => .decodeFailure

/-- Family E: the second switch, on kk (R93). -/
def decodeFamilyE (w : Word) : DecodeResult :=
  match fieldKk w with
  | 0x9E#8 => .instr (.skipKeyPressed (fieldX w))
  | 0xA1#8 => .instr (.skipKeyNotPressed (fieldX w))
  | _ => .decodeFailure

/-- Family F: the second switch, on kk (R94). -/
def decodeFamilyF (w : Word) : DecodeResult :=
  match fieldKk w with
  | 0x07#8 => .instr (.loadDelay (fieldX w))
  | 0x0A#8 => .instr (.waitKey (fieldX w))
  | 0x15#8 => .instr (.setDelay (fieldX w))
  | 0x18#8 => .instr (.setSound (fieldX w))
  | 0x1E#8 => .instr (.addIndex (fieldX w))
  | 0x29#8 => .instr (.loadGlyph (fieldX w))
  | 0x33#8 => .instr (.storeBcd (fieldX w))
  | 0x55#8 => .instr (.storeRegisters (fieldX w))
  | 0x65#8 => .instr (.loadRegisters (fieldX w))
  | _ => .decodeFailure

/-- The switch on the high nibble (R82 steps 2 and 3, R89 to R94). -/
def decodeFamily (w : Word) : DecodeResult :=
  match nibbleA w with
  | 0x0#4 => .instr (.sysCall (fieldNnn w))
  | 0x1#4 => .instr (.jump (fieldNnn w))
  | 0x2#4 => .instr (.call (fieldNnn w))
  | 0x3#4 => .instr (.skipEqImm (fieldX w) (fieldKk w))
  | 0x4#4 => .instr (.skipNeImm (fieldX w) (fieldKk w))
  | 0x5#4 => if nibbleD w = 0x0#4 then .instr (.skipEqReg (fieldX w) (fieldY w)) else .decodeFailure
  | 0x6#4 => .instr (.loadImm (fieldX w) (fieldKk w))
  | 0x7#4 => .instr (.addImm (fieldX w) (fieldKk w))
  | 0x8#4 => decodeFamily8 w
  | 0x9#4 => if nibbleD w = 0x0#4 then .instr (.skipNeReg (fieldX w) (fieldY w)) else .decodeFailure
  | 0xA#4 => .instr (.loadIndex (fieldNnn w))
  | 0xB#4 => .instr (.jumpOffset (fieldNnn w))
  | 0xC#4 => .instr (.random (fieldX w) (fieldKk w))
  | 0xD#4 => .instr (.draw (fieldX w) (fieldY w) (fieldN w))
  | 0xE#4 => decodeFamilyE w
  | _ => decodeFamilyF w  -- only 0xF#4 is left

/-- The decoder (R81, R82): the two exact words first, then the families. -/
def decodeWord (w : Word) : DecodeResult :=
  if w = 0x00E0#16 then .instr .clearScreen
  else if w = 0x00EE#16 then .instr .ret
  else decodeFamily w

/-- The word of two bytes, the first byte high (R66, R80). -/
def wordOfBytes (hi lo : Byte) : Word := hi ++ lo

/-- The decoder on bytes: the instruction and the bytes after it, or a rejection by name (R99). -/
def decode : List Byte → Except DecodeReject (Instr × List Byte)
  | hi :: lo :: rest =>
    match decodeWord (wordOfBytes hi lo) with
    | .instr i => .ok (i, rest)
    | .decodeFailure => .error (.decodeFailure (wordOfBytes hi lo))
  | [_] => .error .truncated
  | [] => .error .truncated

/-- An address form: A, nnn (R80). -/
def packAddr (a : BitVec 4) (nnn : BitVec 12) : Word := a ++ nnn

/-- An immediate form: A, x, kk (R80). -/
def packImm (a : BitVec 4) (x : Hex) (kk : Byte) : Word := a ++ BitVec.ofFin (w := 4) x ++ kk

/-- A register form: A, x, y, and n or the sub-opcode (R80). -/
def packReg (a : BitVec 4) (x y : Hex) (d : BitVec 4) : Word :=
  a ++ BitVec.ofFin (w := 4) x ++ BitVec.ofFin (w := 4) y ++ d

/-- The word of an instruction (the pattern column of R88). -/
def encodeWord : Instr → Word
  | .clearScreen => 0x00E0#16
  | .ret => 0x00EE#16
  | .sysCall nnn => packAddr 0x0#4 nnn
  | .jump nnn => packAddr 0x1#4 nnn
  | .call nnn => packAddr 0x2#4 nnn
  | .skipEqImm x kk => packImm 0x3#4 x kk
  | .skipNeImm x kk => packImm 0x4#4 x kk
  | .skipEqReg x y => packReg 0x5#4 x y 0x0#4
  | .loadImm x kk => packImm 0x6#4 x kk
  | .addImm x kk => packImm 0x7#4 x kk
  | .move x y => packReg 0x8#4 x y 0x0#4
  | .orReg x y => packReg 0x8#4 x y 0x1#4
  | .andReg x y => packReg 0x8#4 x y 0x2#4
  | .xorReg x y => packReg 0x8#4 x y 0x3#4
  | .addReg x y => packReg 0x8#4 x y 0x4#4
  | .sub x y => packReg 0x8#4 x y 0x5#4
  | .shiftRight x y => packReg 0x8#4 x y 0x6#4
  | .subReverse x y => packReg 0x8#4 x y 0x7#4
  | .shiftLeft x y => packReg 0x8#4 x y 0xE#4
  | .skipNeReg x y => packReg 0x9#4 x y 0x0#4
  | .loadIndex nnn => packAddr 0xA#4 nnn
  | .jumpOffset nnn => packAddr 0xB#4 nnn
  | .random x kk => packImm 0xC#4 x kk
  | .draw x y n => packReg 0xD#4 x y (BitVec.ofFin (w := 4) n)
  | .skipKeyPressed x => packImm 0xE#4 x 0x9E#8
  | .skipKeyNotPressed x => packImm 0xE#4 x 0xA1#8
  | .loadDelay x => packImm 0xF#4 x 0x07#8
  | .waitKey x => packImm 0xF#4 x 0x0A#8
  | .setDelay x => packImm 0xF#4 x 0x15#8
  | .setSound x => packImm 0xF#4 x 0x18#8
  | .addIndex x => packImm 0xF#4 x 0x1E#8
  | .loadGlyph x => packImm 0xF#4 x 0x29#8
  | .storeBcd x => packImm 0xF#4 x 0x33#8
  | .storeRegisters x => packImm 0xF#4 x 0x55#8
  | .loadRegisters x => packImm 0xF#4 x 0x65#8

/-- The first (high) byte of a word as it lies in memory (R66). -/
def highByte (w : Word) : Byte := w.extractLsb' 8 8

/-- The second (low) byte of a word as it lies in memory (R66). -/
def lowByte (w : Word) : Byte := w.extractLsb' 0 8

/-- The two bytes of an instruction, as they lie in memory. -/
def encode (i : Instr) : List Byte := [highByte (encodeWord i), lowByte (encodeWord i)]

/-- The mask column of R88: the bits that a row fixes. -/
def opcodeMask : Instr → Word
  | .clearScreen | .ret => 0xFFFF#16
  | .sysCall _ | .jump _ | .call _ | .skipEqImm _ _ | .skipNeImm _ _ | .loadImm _ _ | .addImm _ _
  | .loadIndex _ | .jumpOffset _ | .random _ _ | .draw _ _ _ => 0xF000#16
  | .skipEqReg _ _ | .move _ _ | .orReg _ _ | .andReg _ _ | .xorReg _ _ | .addReg _ _ | .sub _ _
  | .shiftRight _ _ | .subReverse _ _ | .shiftLeft _ _ | .skipNeReg _ _ => 0xF00F#16
  | .skipKeyPressed _ | .skipKeyNotPressed _ | .loadDelay _ | .waitKey _ | .setDelay _ | .setSound _
  | .addIndex _ | .loadGlyph _ | .storeBcd _ | .storeRegisters _ | .loadRegisters _ => 0xF0FF#16

/-- The match column of R88: the values of the bits that a row fixes. -/
def opcodeMatch : Instr → Word
  | .clearScreen => 0x00E0#16
  | .ret => 0x00EE#16
  | .sysCall _ => 0x0000#16
  | .jump _ => 0x1000#16
  | .call _ => 0x2000#16
  | .skipEqImm _ _ => 0x3000#16
  | .skipNeImm _ _ => 0x4000#16
  | .skipEqReg _ _ => 0x5000#16
  | .loadImm _ _ => 0x6000#16
  | .addImm _ _ => 0x7000#16
  | .move _ _ => 0x8000#16
  | .orReg _ _ => 0x8001#16
  | .andReg _ _ => 0x8002#16
  | .xorReg _ _ => 0x8003#16
  | .addReg _ _ => 0x8004#16
  | .sub _ _ => 0x8005#16
  | .shiftRight _ _ => 0x8006#16
  | .subReverse _ _ => 0x8007#16
  | .shiftLeft _ _ => 0x800E#16
  | .skipNeReg _ _ => 0x9000#16
  | .loadIndex _ => 0xA000#16
  | .jumpOffset _ => 0xB000#16
  | .random _ _ => 0xC000#16
  | .draw _ _ _ => 0xD000#16
  | .skipKeyPressed _ => 0xE09E#16
  | .skipKeyNotPressed _ => 0xE0A1#16
  | .loadDelay _ => 0xF007#16
  | .waitKey _ => 0xF00A#16
  | .setDelay _ => 0xF015#16
  | .setSound _ => 0xF018#16
  | .addIndex _ => 0xF01E#16
  | .loadGlyph _ => 0xF029#16
  | .storeBcd _ => 0xF033#16
  | .storeRegisters _ => 0xF055#16
  | .loadRegisters _ => 0xF065#16

/-- The instruction the decoder reads from the bits w of a row (the host's numbering: w is the one
16-bit word). Bits above nbits are 0; the word is laid out big-endian (R66) and given to `decode`. -/
def decodeTableWord (nbits w : Nat) : Option Instr :=
  let word : Word := BitVec.ofNat 16 (w % 2 ^ nbits)
  match decode [highByte word, lowByte word] with
  | .ok (i, _) => some i
  | .error _ => none

end Sys2Proof
end

