-- ==== Sys2Proof/Config.lean ====
section
/-! DEFINITION. What is fixed for the machine while it runs: the quirk record (10_state.md R40), the
parameters of 10_state.md R36 with the spec's defaults, and the free values of the model: the
random byte (R194), a fault record's absent word (R313), the host's cycles per frame (R138). -/

namespace Sys2Proof

/-- `Q.sprite_edges` (R40, R254). -/
inductive SpriteEdges where
  | clip
  | wrap
  deriving DecidableEq, Repr

/-- `Q.shift_source` (R40, R193): the register SHR and SHL shift, Vx or Vy. -/
inductive ShiftSource where
  | first
  | second
  deriving DecidableEq, Repr

/-- `Q.jump_register` (R40, R159). -/
inductive JumpRegister where
  | v0
  | vx
  deriving DecidableEq, Repr

/-- The quirk record `Q` (R40): six independent two-valued fields; `true` is the spec's `on`. -/
structure Quirks where
  /-- `Q.reset_vf_on_logic`, read by OR, AND, XOR (R184). -/
  resetVfOnLogic : Bool
  /-- `Q.index_increment`, read by the two block transfers (R221). -/
  indexIncrement : Bool
  /-- `Q.display_wait`, read by DRW (R252). -/
  displayWait : Bool
  /-- `Q.sprite_edges`, read by the draw algorithm (R254). -/
  spriteEdges : SpriteEdges
  /-- `Q.shift_source`, read by SHR, SHL (R193). -/
  shiftSource : ShiftSource
  /-- `Q.jump_register`, read by JP V0 (R159). -/
  jumpRegister : JumpRegister
  deriving DecidableEq, Repr

/-- `SYS_POLICY` (R36, R151). -/
inductive SysPolicy where
  | fault
  | nop
  deriving DecidableEq, Repr

/-- `GLYPH_INDEX_MODE` (R36, R224). -/
inductive GlyphIndexMode where
  | lowNibble
  | full
  deriving DecidableEq, Repr

/-- `INDEX_OVERFLOW` (R36, R223). -/
inductive IndexOverflow where
  | wrap
  | fault
  deriving DecidableEq, Repr

/-- What the core is constructed with and no step ever changes (R36, R41, R344). -/
structure Config where
  quirks : Quirks
  sysPolicy : SysPolicy
  glyphIndexMode : GlyphIndexMode
  indexOverflow : IndexOverflow
  /-- `GLYPHS`: 16 glyphs of 5 bytes, digit d at 5d..5d+4 (R341). -/
  glyphs : Vector Byte 80
  deriving DecidableEq, Repr

/-- The quirk defaults of R40. -/
def Quirks.default : Quirks where
  resetVfOnLogic := true
  indexIncrement := true
  displayWait := true
  spriteEdges := .clip
  shiftSource := .second
  jumpRegister := .v0

/-- The default glyph table of R341. Only digit 0 is the source's; the rest is UNVERIFIED, log entry 13. -/
def Config.defaultGlyphs : Vector Byte 80 := #v[
  0xF0, 0x90, 0x90, 0x90, 0xF0, 0x20, 0x60, 0x20, 0x20, 0x70,
  0xF0, 0x10, 0xF0, 0x80, 0xF0, 0xF0, 0x10, 0xF0, 0x10, 0xF0,
  0x90, 0x90, 0xF0, 0x10, 0x10, 0xF0, 0x80, 0xF0, 0x10, 0xF0,
  0xF0, 0x80, 0xF0, 0x90, 0xF0, 0xF0, 0x10, 0x20, 0x40, 0x40,
  0xF0, 0x90, 0xF0, 0x90, 0xF0, 0xF0, 0x90, 0xF0, 0x10, 0xF0,
  0xF0, 0x90, 0xF0, 0x90, 0x90, 0xE0, 0x90, 0xE0, 0x90, 0xE0,
  0xF0, 0x80, 0x80, 0x80, 0xF0, 0xE0, 0x90, 0x90, 0x90, 0xE0,
  0xF0, 0x80, 0xF0, 0x80, 0xF0, 0xF0, 0x80, 0xF0, 0x80, 0x80]

/-- The default parameters (00_scope.md section 5; D6, D9, D10, D12). -/
def Config.default : Config where
  quirks := Quirks.default
  sysPolicy := .fault
  glyphIndexMode := .lowNibble
  indexOverflow := .wrap
  glyphs := Config.defaultGlyphs

/-- The one constraint on `GLYPHS`: "a parameter whose first five bytes are `F0 90 90 90 F0`" (R341). -/
def Config.wf (c : Config) : Bool :=
  c.glyphs.toList.take 5 == [0xF0#8, 0x90#8, 0x90#8, 0x90#8, 0xF0#8]

/-- FREE VALUE: the n-th random byte drawn (R194: "a free input of this step: any value 0..255").
It has no body, so nothing is known of it; the counter is `State.draws`. Log entry 3. -/
opaque Config.randomByte : Nat → Byte

/-- FREE VALUE: what a fault record's `word` holds when its `addr` lies beyond memory, so that there is no
instruction word at it (R313 states none; a fetch at pc >= 0x0FFF, R67). Log entry 5. -/
opaque Config.absentWord : Word → Word

/-- FREE VALUE: the host's cycles per frame, less one (R138: "a positive natural, and the source does
not give its value"). No step reads it. Log entry 6. -/
opaque Config.extraCyclesPerFrame : Nat

/-- `CYCLES_PER_FRAME` (R138, D22): a positive natural of which nothing else is known. -/
def Config.cyclesPerFrame : Nat := Config.extraCyclesPerFrame + 1

end Sys2Proof
end

