-- ==== Sys2Proof/Machine/State.lean ====
section
/-! DEFINITION. The machine's state as plain data: every piece of state of 10_state.md and 20_memory.md,
the fault record of 60_exceptions.md R313, the construction parameters, the host calls still to come,
and State.reset, the state that 70_reset_and_hazards.md R340 constructs. -/

namespace Sys2Proof.Machine

/-- The framebuffer: 32 rows of 64 boolean pixels, row-major (R29). -/
abbrev Framebuffer := Vector (Vector Bool 64) 32

/-- Memory: the bytes that differ from what an unlisted address reads as, by rising address (R60).
Its canonical form is `Memory.Wf`. -/
abbrev Memory := List Host.Cell

/-- `WAIT` (R33). -/
inductive Wait where
  | running
  /-- Entered by LD Vx,K; `latched` is the key most recently pressed during the wait. -/
  | waitingForKey (x : Hex) (latched : Option Hex)
  /-- Entered by DRW under `display_wait`; the draw's operands. -/
  | waitingForDisplayRefresh (x y n : Hex)
  deriving DecidableEq, Repr

/-- The fault kinds of R312, in the order of their codes 1 to 9. Each is RAISED INTO THE STATE (the
field `fault`, R311); none ends the model's step (log entry 4). -/
inductive FaultKind where
  /-- Code 1, raised by the cycle on a word of R95 (R124). -/
  | decodeError
  /-- Code 2, raised by the cycle when pc >= 0x0FFF (R67). -/
  | fetchOutOfRange
  /-- Code 3, raised by LD B, LD [I], LD Vx,[I] and a draw (R220). -/
  | memOutOfRange
  /-- Code 4, raised by CALL with SP = 16 (R154). -/
  | stackOverflow
  /-- Code 5, raised by RET with SP = 0 (R152). -/
  | stackUnderflow
  /-- Code 6, raised by SYS under SYS_POLICY = fault (R151). -/
  | sysUnsupported
  /-- Code 7, raised by ADD I,Vx under INDEX_OVERFLOW = fault (R223). -/
  | indexOverflow
  /-- Code 8, raised by DRW while a draw is pending; no run reaches it (R257). -/
  | drawWhilePending
  /-- Code 9, raised by a program load of more than 3584 bytes (R343). -/
  | programTooLarge
  deriving DecidableEq, Repr

/-- The info of a fault (R312): the failing word and pc for DecodeError, else one number. -/
inductive FaultInfo where
  | failingWord (w pc : Word)
  | value (n : Nat)
  deriving DecidableEq, Repr

/-- A fault record (R313). -/
structure FaultRecord where
  kind : FaultKind
  info : FaultInfo
  /-- The address of the instruction concerned. -/
  addr : Word
  /-- The instruction word at `addr`. -/
  word : Word
  deriving DecidableEq, Repr

/-- One call of the host (R137): the five kinds of step of the single agent. -/
inductive HostCall where
  | cycle
  | frameTick
  | keyPress (k : Hex)
  | keyRelease (k : Hex)
  | loadProgram (image : List Byte)
  deriving DecidableEq, Repr

structure State where
  /-- The construction parameters (R36, R40); no step changes them (R41). Log entry 1. -/
  cfg : Config
  /-- `V[0..15]` (R20). -/
  v : Vector Byte 16
  /-- `I` (R22). -/
  i : Word
  /-- The program counter (R23). -/
  pc : Word
  /-- The call stack `S[0..15]` (R24). -/
  stack : Vector Word 16
  /-- The stack pointer 0..16 (R25). -/
  sp : Fin 17
  /-- The delay timer (R26). -/
  dt : Byte
  /-- The sound timer (R27). -/
  st : Byte
  /-- `KEYS`: entry k says that key k is pressed (R28). -/
  keys : Vector Bool 16
  /-- `FB` (R29). -/
  fb : Framebuffer
  /-- `WAIT` (R33). -/
  wait : Wait
  /-- `FAULT` (R35). -/
  fault : Option FaultRecord
  /-- `MEM` (R60). -/
  mem : Memory
  /-- The model's own: how many random bytes RND has drawn (R194). Log entry 3. -/
  draws : Nat
  /-- The model's own: the host calls to come, oldest first; when there are none left the host calls
  `cycle` (R137). Log entry 2. -/
  calls : List HostCall
  deriving DecidableEq, Repr

/-- How a step of the model can stop with a fault: IT CANNOT, so there is no constructor. Every fault of
R312 is state of this machine: R311 records it in FAULT, and the step answers that halted state.
Raised by nobody; safe. Log entry 4. -/
inductive Fault where
  deriving DecidableEq, Repr

/-- How a step of the model can be refused. -/
inductive Refusal where
  /-- An arm of exec without a meaning; raised by no arm of this model. Safe. -/
  | notModelled (mnemonic : String)
  deriving DecidableEq, Repr

/-- Power-on (R340): the core constructed with the parameters c. -/
def State.construct (c : Config) : State where
  cfg := c
  v := Vector.replicate 16 0
  i := 0
  pc := 0
  stack := Vector.replicate 16 0
  sp := 0
  dt := 0
  st := 0
  keys := Vector.replicate 16 false
  fb := Vector.replicate 32 (Vector.replicate 64 false)
  wait := .running
  fault := none
  mem := []
  draws := 0
  calls := []

/-- The machine right after reset: constructed with the default parameters (R340, R40, R341). -/
def State.reset : State := State.construct Config.default

end Sys2Proof.Machine
end

