-- ==== Sys2Proof/Machine/Ops.lean ====
section
/-! DEFINITION. The named operations over registers, memory, the stack and WAIT, the range check of
R220, and raising a fault (R311, R313): the one way into the Halted state, and load_program's reset of
it stands in Machine/HostCalls.lean (this machine has no return from an exception, R316). -/

namespace Sys2Proof.Machine

/-! ### General registers, flags register, index register, program counter -/

/-- `V[x]` (R20). -/
def State.getV (s : State) (x : Hex) : Byte := s.v[x]

/-- `V[x] <- b` (R20). -/
def State.setV (s : State) (x : Hex) (b : Byte) : State := { s with v := s.v.set x b }

/-- `VF <- b`: V[15] as the flags register (R21, R44). -/
def State.setVF (s : State) (b : Byte) : State := s.setV 15 b

/-- Write the result to V[x] and THEN the flag to VF (R21): with x = 15 the flag stays. -/
def State.setVThenFlag (s : State) (x : Hex) (result flag : Byte) : State := (s.setV x result).setVF flag

/-- `I <- a` (R22). -/
def State.setI (s : State) (a : Word) : State := { s with i := a }

/-- `pc <- a` (R23). -/
def State.setPc (s : State) (a : Word) : State := { s with pc := a }

/-- `pc <- pc + 2`: the cycle's advance (R123) and a taken skip (R150). -/
def State.advancePc (s : State) : State := s.setPc (s.pc + 2)

/-- Skip the next word if the condition holds (R150). -/
def State.skipIf (s : State) (c : Bool) : State := if c then s.advancePc else s

/-- `WAIT <- w` (R33). -/
def State.setWait (s : State) (w : Wait) : State := { s with wait := w }

/-- A 12-bit address zero-extended to 16 bits (R87). -/
def zext16 (nnn : BitVec 12) : Word := nnn.setWidth 16

/-- A register's byte zero-extended to 16 bits (R87). -/
def byteToWord (b : Byte) : Word := b.setWidth 16

/-- A number 0..15 as the byte a register holds (R135). -/
def hexToByte (k : Hex) : Byte := BitVec.ofNat 8 k.val

/-! ### Memory -/

/-- `MEM_SIZE` (R60). -/
abbrev memSize : Nat := 4096

/-- What an address that memory does not list reads as: the contents of R340, that is GLYPHS at 0..79
and 0 above. Addresses from 4096 up are no address of the machine (R61); no rule reads one. -/
def Memory.unlisted (g : Vector Byte 80) (a : Nat) : Byte := if h : a < 80 then g[a] else 0

/-- The byte at an address (R62), for an address that has been checked. -/
def Memory.read (g : Vector Byte 80) : Memory → Nat → Byte
  | [], a => Memory.unlisted g a
  | (b, v) :: m, a => if a = b then v else Memory.read g m a

/-- Take an address's entry out: it then reads as an unlisted address. -/
def Memory.erase (m : Memory) (a : Nat) : Memory := m.filter fun c => decide (c.1 ≠ a)

/-- Put an entry in at its place in the rising order, or in place of the one there. -/
def Memory.insert : Memory → Nat → Byte → Memory
  | [], a, v => [(a, v)]
  | (b, u) :: m, a, v =>
    if a < b then (a, v) :: (b, u) :: m
    else if a = b then (a, v) :: m
    else (b, u) :: Memory.insert m a v

/-- Store a byte (R63), keeping the canonical form: a byte equal to what an unlisted address reads as is
not listed. -/
def Memory.write (g : Vector Byte 80) (m : Memory) (a : Nat) (v : Byte) : Memory :=
  if v = Memory.unlisted g a then Memory.erase m a else Memory.insert m a v

/-- The canonical form: addresses strictly rising and below 4096, no entry that an unlisted address
would read as anyway. -/
abbrev Memory.Wf (g : Vector Byte 80) (m : Memory) : Prop :=
  m.Pairwise (fun c d => c.1 < d.1) ∧ ∀ c ∈ m, c.1 < memSize ∧ c.2 ≠ Memory.unlisted g c.1

/-- `MEM[a]` (R62). -/
def State.readByte (s : State) (a : Nat) : Byte := Memory.read s.cfg.glyphs s.mem a

/-- `MEM[a] <- b` (R63). -/
def State.writeByte (s : State) (a : Nat) (b : Byte) : State :=
  { s with mem := Memory.write s.cfg.glyphs s.mem a b }

/-- The two bytes at an address as a word, big-endian (R66). -/
def State.wordAt (s : State) (a : Nat) : Word := wordOfBytes (s.readByte a) (s.readByte (a + 1))

/-! ### Faults -/

/-- Raise a fault (R311): record it in FAULT, which halts the core. Nothing else changes. -/
def State.raise (s : State) (kind : FaultKind) (info : FaultInfo) (addr word : Word) : State :=
  { s with fault := some { kind, info, addr, word } }

/-- The highest address that a word can be read from: both its bytes lie in memory (R67). -/
abbrev lastFetch : Nat := 0x0FFE

/-- The word of a fault record: "the 16-bit instruction word at `addr`" (R313). Where no word lies at
addr, beyond memory, the spec states no value, and it is free. Log entry 5. -/
def State.faultWord (s : State) (a : Word) : Word :=
  if a.toNat ≤ lastFetch then s.wordAt a.toNat else Config.absentWord a

/-- Raise a fault about the instruction at `a`: the record holds `a` and the word there (R313). -/
def State.raiseAt (s : State) (kind : FaultKind) (info : FaultInfo) (a : Word) : State :=
  s.raise kind info a (s.faultWord a)

/-- Raise a fault while an instruction executes, or in a deferred draw: pc has advanced, so the
instruction stands at pc - 2 (R313). Log entry 5. -/
def State.raiseExec (s : State) (kind : FaultKind) (info : FaultInfo) : State :=
  s.raiseAt kind info (s.pc - 2)

/-- The range check of R220 for m bytes from I: `I + m - 1 < 4096` on naturals; no byte, no check. -/
def State.indexRangeOk (s : State) (m : Nat) : Bool := m == 0 || decide (s.i.toNat + m - 1 < memSize)

/-- Do `act`, which accesses the m bytes from I, if the whole range lies in memory; otherwise raise
MemOutOfRange with the highest address before anything is written (R220, R64). -/
def State.withinRange (s : State) (m : Nat) (act : State → State) : State :=
  if s.indexRangeOk m then act s else s.raiseExec .memOutOfRange (.value (s.i.toNat + m - 1))

/-- The code of a fault kind (R312). -/
def FaultKind.code : FaultKind → Nat
  | .decodeError => 1
  | .fetchOutOfRange => 2
  | .memOutOfRange => 3
  | .stackOverflow => 4
  | .stackUnderflow => 5
  | .sysUnsupported => 6
  | .indexOverflow => 7
  | .drawWhilePending => 8
  | .programTooLarge => 9

/-! ### The call stack -/

/-- CALL's push: write the slot, then increment SP (R25, R154); on a full stack raise StackOverflow. -/
def State.pushThenJump (s : State) (target : Word) : State :=
  if h : s.sp.val < 16 then
    { s with stack := s.stack.set s.sp.val s.pc, sp := ⟨s.sp.val + 1, Nat.succ_lt_succ h⟩, pc := target }
  else s.raiseExec .stackOverflow (.value 0)

/-- RET's pop: decrement SP, then read the slot, which keeps its value (R25, R152, D27); on an empty
stack raise StackUnderflow. -/
def State.popThenJump (s : State) : State :=
  if h : 0 < s.sp.val then
    { s with sp := ⟨s.sp.val - 1, by omega⟩, pc := s.stack[s.sp.val - 1] }
  else s.raiseExec .stackUnderflow (.value 0)

/-! ### Keys and pixels -/

/-- `b ∈ KEYS`: a byte above 15 is no key code and is never pressed (R280, D19). -/
def State.keyPressed (s : State) (b : Byte) : Bool :=
  if h : b.toNat < 16 then s.keys[b.toNat] else false

/-- Pixel `FB[px, py]` (R29). -/
def Framebuffer.pixel (fb : Framebuffer) (px : Fin 64) (py : Fin 32) : Bool := fb[py][px]

/-- Cell number k of the row-major grid: `FB[k mod 64, k div 64]` (R29). -/
def Framebuffer.cell (fb : Framebuffer) (k : Fin 2048) : Bool :=
  fb.pixel ⟨k.val % 64, Nat.mod_lt _ (by decide)⟩ ⟨k.val / 64, by omega⟩

/-- Turn pixel `FB[px, py]` over: XOR with true (R253). -/
def Framebuffer.flip (fb : Framebuffer) (px : Fin 64) (py : Fin 32) : Framebuffer :=
  fb.set py ((fb[py]).set px (!fb.pixel px py))

/-- Every pixel off (R251, R340). -/
def Framebuffer.blank : Framebuffer := Vector.replicate 32 (Vector.replicate 64 false)

/-! ### What the host can observe (R139, R140, R287), and the engine's condition (R120) -/

/-- The tone level: `ST ≠ 0` (R287). -/
def State.tone (s : State) : Bool := s.st != 0

/-- The condition of the engine (R120). -/
inductive EngineCondition where
  | running
  | suspended
  | halted
  deriving DecidableEq, Repr

/-- R120: Halted if FAULT holds a record, else Running or Suspended by WAIT. -/
def State.condition (s : State) : EngineCondition :=
  match s.fault with
  | some _ => .halted
  | none =>
    match s.wait with
    | .running => .running
    | .waitingForKey _ _ => .suspended
    | .waitingForDisplayRefresh _ _ _ => .suspended

end Sys2Proof.Machine
end

