-- ==== Sys2Proof/Machine/Operands.lean ====
section
/-! DEFINITION. The operands that a quirk or a parameter chooses: what SHR and SHL shift (R193), the
register JP V0 adds (R159), the digit LD F points at (R224), and the random byte (R194). -/

namespace Sys2Proof.Machine

/-- R193: V[y] under `second`, V[x] under `first`. -/
def State.shiftSource (s : State) (x y : Hex) : Byte :=
  match s.cfg.quirks.shiftSource with
  | .second => s.getV y
  | .first => s.getV x

/-- R159: register 0 under `v0`, else `w[11:8]`, the top nibble of nnn. -/
def State.jumpRegister (s : State) (nnn : BitVec 12) : Hex :=
  match s.cfg.quirks.jumpRegister with
  | .v0 => 0
  | .vx => (nnn.extractLsb' 8 4).toFin

/-- R224: the low nibble of V[x], or all of it under `full`. -/
def State.glyphDigit (s : State) (x : Hex) : Byte :=
  match s.cfg.glyphIndexMode with
  | .lowNibble => s.getV x &&& 0x0F
  | .full => s.getV x

/-- `GLYPH_BASE + 5 * d` with GLYPH_BASE = 0 (R224, R69). -/
def glyphAddress (d : Byte) : Word := BitVec.ofNat 16 (5 * d.toNat)

/-- The three decimal digits of a byte: hundreds, tens, units (R225). -/
def bcdHundreds (b : Byte) : Byte := BitVec.ofNat 8 (b.toNat / 100)

def bcdTens (b : Byte) : Byte := BitVec.ofNat 8 (b.toNat / 10 % 10)

def bcdUnits (b : Byte) : Byte := BitVec.ofNat 8 (b.toNat % 10)

/-- The byte that the next RND draws (R194): free. -/
def State.nextRandom (s : State) : Byte := Config.randomByte s.draws

/-- The draw is taken: the next RND gets another free byte (R194). -/
def State.takeRandom (s : State) : State := { s with draws := s.draws + 1 }

end Sys2Proof.Machine
end

