-- ==== Sys2Proof/Machine/ControlFlow.lean ====
section
/-! DEFINITION. Control transfer (41_control_flow.md): SYS, RET, JP, CALL, the four compare skips, JP V0.
On entry pc already holds the instruction's address + 2 (R123). -/

namespace Sys2Proof.Machine

/-- SYS nnn (R151, D6): a fault or nothing, by SYS_POLICY. -/
def execSysCall (nnn : BitVec 12) (s : State) : Host.Outcome State Fault Refusal :=
  match s.cfg.sysPolicy with
  | .fault => .next (s.raiseExec .sysUnsupported (.value nnn.toNat))
  | .nop => .next s

/-- RET (R152). -/
def execRet (s : State) : Host.Outcome State Fault Refusal := .next s.popThenJump

/-- JP nnn (R153). -/
def execJump (nnn : BitVec 12) (s : State) : Host.Outcome State Fault Refusal :=
  .next (s.setPc (zext16 nnn))

/-- CALL nnn (R154): pushes the advanced pc. -/
def execCall (nnn : BitVec 12) (s : State) : Host.Outcome State Fault Refusal :=
  .next (s.pushThenJump (zext16 nnn))

/-- SE Vx, kk (R155). -/
def execSkipEqImm (x : Hex) (kk : Byte) (s : State) : Host.Outcome State Fault Refusal :=
  .next (s.skipIf (decide (s.getV x = kk)))

/-- SNE Vx, kk (R156). -/
def execSkipNeImm (x : Hex) (kk : Byte) (s : State) : Host.Outcome State Fault Refusal :=
  .next (s.skipIf (decide (s.getV x ≠ kk)))

/-- SE Vx, Vy (R157). -/
def execSkipEqReg (x y : Hex) (s : State) : Host.Outcome State Fault Refusal :=
  .next (s.skipIf (decide (s.getV x = s.getV y)))

/-- SNE Vx, Vy (R158). -/
def execSkipNeReg (x y : Hex) (s : State) : Host.Outcome State Fault Refusal :=
  .next (s.skipIf (decide (s.getV x ≠ s.getV y)))

/-- JP V0, nnn (R159): nnn plus the register the quirk selects, not reduced modulo 4096. -/
def execJumpOffset (nnn : BitVec 12) (s : State) : Host.Outcome State Fault Refusal :=
  .next (s.setPc (zext16 nnn + byteToWord (s.getV (s.jumpRegister nnn))))

end Sys2Proof.Machine
end

