-- ==== Sys2Proof/Machine/Flags.lean ====
section
/-! DEFINITION. Every flag computation of the spec: the values VF can take (10_state.md R44), each as
the byte 0x01 or 0x00. -/

namespace Sys2Proof.Machine

/-- "Set to 1" or "set to 0": the byte 0x01 or 0x00 (00_scope.md section 6). -/
def flagByte (c : Bool) : Byte := if c then 1 else 0

/-- ADD Vx,Vy: carry, the untruncated sum exceeds 255 (R188). -/
def carryFlag (a b : Byte) : Byte := flagByte (decide (a.toNat + b.toNat > 255))

/-- SUB, SUBN: no borrow, minuend >= subtrahend (R189, R191). -/
def noBorrowFlag (minuend subtrahend : Byte) : Byte :=
  flagByte (decide (subtrahend.toNat ≤ minuend.toNat))

/-- SHR: the bit shifted out, bit 0 of the source (R190). -/
def shiftRightFlag (src : Byte) : Byte := src &&& 1

/-- SHL: the bit shifted out, bit 7 of the source (R192). -/
def shiftLeftFlag (src : Byte) : Byte := src >>> 7

/-- DRW: whether some pixel turned from on to off (R256). -/
def collisionFlag (c : Bool) : Byte := flagByte c

/-- OR, AND, XOR: the result, then `VF <- 0` if `Q.reset_vf_on_logic` is on (R184). -/
def State.setLogicResult (s : State) (x : Hex) (result : Byte) : State :=
  if s.cfg.quirks.resetVfOnLogic then s.setVThenFlag x result 0 else s.setV x result

end Sys2Proof.Machine
end

