-- ==== Sys2Proof/Machine/Display.lean ====
section
/-! DEFINITION. The display (44_display.md): CLS, DRW, and the draw algorithm, which the frame tick runs
too (R131). -/

namespace Sys2Proof.Machine

/-- What a draw's scan carries: the framebuffer and whether VF has been raised (R253). -/
structure Scan where
  fb : Framebuffer
  collision : Bool
  deriving DecidableEq, Repr

/-- Edge handling `place(cx, cy)` (R254): the pixel a sprite bit lands on, or none when it is clipped. -/
def place (edges : SpriteEdges) (cx cy : Nat) : Option (Fin 64 × Fin 32) :=
  match edges with
  | .wrap => some (Fin.ofNat 64 cx, Fin.ofNat 32 cy)
  | .clip => if h : cx ≤ 63 ∧ cy ≤ 31 then some (⟨cx, by omega⟩, ⟨cy, by omega⟩) else none

/-- Column c of a sprite byte: bit 7 - c, bit 7 the leftmost (R255, D11). -/
def spriteBit (b : Byte) (c : Nat) : Bool := b.getLsbD (7 - c)

/-- One sprite bit of 1 at a pixel: note the collision if the pixel was on, and turn it over (R253). -/
def Scan.plot (t : Scan) (px : Fin 64) (py : Fin 32) : Scan where
  fb := t.fb.flip px py
  collision := t.collision || t.fb.pixel px py

/-- One column of a row: nothing for a bit of 0 or for a clipped pixel (R253, R254). -/
def Scan.column (t : Scan) (edges : SpriteEdges) (b : Byte) (bx cy c : Nat) : Scan :=
  if spriteBit b c then
    match place edges (bx + c) cy with
    | some p => t.plot p.1 p.2
    | none => t
  else t

/-- The first c columns of a row, from the left (R253). -/
def Scan.columns (t : Scan) (edges : SpriteEdges) (b : Byte) (bx cy : Nat) : Nat → Scan
  | 0 => t
  | c + 1 => (t.columns edges b bx cy c).column edges b bx cy c

/-- The first r rows of the sprite at I, from the top (R253). -/
def State.scanRows (s : State) (bx by_ : Nat) : Nat → Scan
  | 0 => { fb := s.fb, collision := false }
  | r + 1 =>
    (s.scanRows bx by_ r).columns s.cfg.quirks.spriteEdges (s.readByte (s.i.toNat + r)) bx (by_ + r) 8

/-- The base coordinates, read before VF is reset (R250, R253). -/
def State.baseX (s : State) (x : Hex) : Nat := (s.getV x).toNat % 64

def State.baseY (s : State) (y : Hex) : Nat := (s.getV y).toNat % 32

/-- The draw after its range check: scan n rows, then leave the framebuffer and VF as the scan has
them; VF starts at 0 and is only raised (R253, R256). -/
def State.paint (s : State) (x y n : Hex) : State :=
  let t := s.scanRows (s.baseX x) (s.baseY y) n.val
  { s with fb := t.fb }.setVF (collisionFlag t.collision)

/-- `draw_sprite(x, y, n)` (R253), which may fault. -/
def State.drawSprite (s : State) (x y n : Hex) : State := s.withinRange n.val (fun t => t.paint x y n)

/-- CLS (R251): every pixel off. -/
def execClearScreen (s : State) : Host.Outcome State Fault Refusal :=
  .next { s with fb := Framebuffer.blank }

/-- DRW Vx, Vy, n (R252): deferred to the next tick under `display_wait`, else drawn now. With a draw
pending, which no run reaches, DrawWhilePending (R257, D17). -/
def execDraw (x y n : Hex) (s : State) : Host.Outcome State Fault Refusal :=
  match s.wait with
  | .waitingForDisplayRefresh _ _ _ =>
    .next (s.raiseExec .drawWhilePending (.value (s.pc - 2).toNat))
  | .running | .waitingForKey _ _ =>
    if s.cfg.quirks.displayWait then .next (s.setWait (.waitingForDisplayRefresh x y n))
    else .next (s.drawSprite x y n)

end Sys2Proof.Machine
end

