-- ==== Sys2Proof/Machine/IndexMemory.lean ====
section
/-! DEFINITION. The index register and the memory transfers (43_index_memory.md): LD I, ADD I, LD F,
LD B, LD [I], LD Vx,[I]. -/

namespace Sys2Proof.Machine

/-- The register number k of a block transfer. -/
def blockRegister (k : Nat) : Hex := Fin.ofNat 16 k

/-- One iteration's `I <- I + 1`, under `Q.index_increment` (R221). -/
def State.bumpIndex (s : State) : State :=
  if s.cfg.quirks.indexIncrement then s.setI (s.i + 1) else s

/-- The first n iterations of LD [I],Vx from the address i0, in the order 0, 1, .. (R226, R221). -/
def State.storeBlock (s : State) (i0 : Nat) : Nat → State
  | 0 => s
  | k + 1 =>
    let t := s.storeBlock i0 k
    (t.writeByte (i0 + k) (t.getV (blockRegister k))).bumpIndex

/-- The first n iterations of LD Vx,[I] from the address i0, in the order 0, 1, .. (R227, R221). -/
def State.loadBlock (s : State) (i0 : Nat) : Nat → State
  | 0 => s
  | k + 1 =>
    let t := s.loadBlock i0 k
    (t.setV (blockRegister k) (t.readByte (i0 + k))).bumpIndex

/-- LD B's three stores, units first (R225). -/
def State.storeDigits (s : State) (b : Byte) : State :=
  ((s.writeByte (s.i.toNat + 2) (bcdUnits b)).writeByte (s.i.toNat + 1) (bcdTens b)).writeByte
    s.i.toNat (bcdHundreds b)

/-- LD I, nnn (R222). -/
def execLoadIndex (nnn : BitVec 12) (s : State) : Host.Outcome State Fault Refusal :=
  .next (s.setI (zext16 nnn))

/-- ADD I, Vx (R223, D12): past 0xFFFF it wraps or faults, by INDEX_OVERFLOW; VF is not written. -/
def execAddIndex (x : Hex) (s : State) : Host.Outcome State Fault Refusal :=
  let sum := s.i.toNat + (s.getV x).toNat
  if sum > 0xFFFF then
    match s.cfg.indexOverflow with
    | .fault => .next (s.raiseExec .indexOverflow (.value sum))
    | .wrap => .next (s.setI (BitVec.ofNat 16 (sum % 0x10000)))
  else .next (s.setI (BitVec.ofNat 16 sum))

/-- LD F, Vx (R224). -/
def execLoadGlyph (x : Hex) (s : State) : Host.Outcome State Fault Refusal :=
  .next (s.setI (glyphAddress (s.glyphDigit x)))

/-- LD B, Vx (R225, R220). -/
def execStoreBcd (x : Hex) (s : State) : Host.Outcome State Fault Refusal :=
  .next (s.withinRange 3 (fun t => t.storeDigits (t.getV x)))

/-- LD [I], Vx (R226, R220, R221): V[0] to V[x], inclusive. -/
def execStoreRegisters (x : Hex) (s : State) : Host.Outcome State Fault Refusal :=
  .next (s.withinRange (x.val + 1) (fun t => t.storeBlock t.i.toNat (x.val + 1)))

/-- LD Vx, [I] (R227, R220, R221): V[0] to V[x], inclusive. -/
def execLoadRegisters (x : Hex) (s : State) : Host.Outcome State Fault Refusal :=
  .next (s.withinRange (x.val + 1) (fun t => t.loadBlock t.i.toNat (x.val + 1)))

end Sys2Proof.Machine
end

