-- ==== Sys2Proof/Machine/KeysTimers.lean ====
section
/-! DEFINITION. Keys and timers (45_keys_timers.md): SKP, SKNP, LD Vx,K, LD Vx,DT, LD DT, LD ST, and
the timer decrement that the frame tick runs. -/

namespace Sys2Proof.Machine

/-- One timer's tick: down by one, saturating at zero (R286). -/
def tickTimer (t : Byte) : Byte := if t = 0 then 0 else t - 1

/-- `decrement_timers()` (R286). -/
def State.decrementTimers (s : State) : State := { s with dt := tickTimer s.dt, st := tickTimer s.st }

/-- SKP Vx (R280). -/
def execSkipKeyPressed (x : Hex) (s : State) : Host.Outcome State Fault Refusal :=
  .next (s.skipIf (s.keyPressed (s.getV x)))

/-- SKNP Vx (R281). -/
def execSkipKeyNotPressed (x : Hex) (s : State) : Host.Outcome State Fault Refusal :=
  .next (s.skipIf (!s.keyPressed (s.getV x)))

/-- LD Vx, DT (R283). -/
def execLoadDelay (x : Hex) (s : State) : Host.Outcome State Fault Refusal := .next (s.setV x s.dt)

/-- LD Vx, K (R282): V[x] is written by the key presses to come, not here. -/
def execWaitKey (x : Hex) (s : State) : Host.Outcome State Fault Refusal :=
  .next (s.setWait (.waitingForKey x none))

/-- LD DT, Vx (R284). -/
def execSetDelay (x : Hex) (s : State) : Host.Outcome State Fault Refusal :=
  .next { s with dt := s.getV x }

/-- LD ST, Vx (R285). -/
def execSetSound (x : Hex) (s : State) : Host.Outcome State Fault Refusal :=
  .next { s with st := s.getV x }

end Sys2Proof.Machine
end

