-- ==== Sys2Proof/Machine/RegisterAlu.lean ====
section
/-! DEFINITION. The register ALU (42_register_alu.md): LD, ADD, the logic operations, SUB, SUBN, the
shifts, RND. None of them faults. -/

namespace Sys2Proof.Machine

/-- LD Vx, kk (R181). -/
def execLoadImm (x : Hex) (kk : Byte) (s : State) : Host.Outcome State Fault Refusal :=
  .next (s.setV x kk)

/-- ADD Vx, kk (R182): modulo 256, no flag. -/
def execAddImm (x : Hex) (kk : Byte) (s : State) : Host.Outcome State Fault Refusal :=
  .next (s.setV x (s.getV x + kk))

/-- LD Vx, Vy (R183). -/
def execMove (x y : Hex) (s : State) : Host.Outcome State Fault Refusal :=
  .next (s.setV x (s.getV y))

/-- OR Vx, Vy (R185, R184). -/
def execOrReg (x y : Hex) (s : State) : Host.Outcome State Fault Refusal :=
  .next (s.setLogicResult x (s.getV x ||| s.getV y))

/-- AND Vx, Vy (R186, R184). -/
def execAndReg (x y : Hex) (s : State) : Host.Outcome State Fault Refusal :=
  .next (s.setLogicResult x (s.getV x &&& s.getV y))

/-- XOR Vx, Vy (R187, R184). -/
def execXorReg (x y : Hex) (s : State) : Host.Outcome State Fault Refusal :=
  .next (s.setLogicResult x (s.getV x ^^^ s.getV y))

/-- ADD Vx, Vy (R188). -/
def execAddReg (x y : Hex) (s : State) : Host.Outcome State Fault Refusal :=
  .next (s.setVThenFlag x (s.getV x + s.getV y) (carryFlag (s.getV x) (s.getV y)))

/-- SUB Vx, Vy (R189): Vx - Vy. -/
def execSub (x y : Hex) (s : State) : Host.Outcome State Fault Refusal :=
  .next (s.setVThenFlag x (s.getV x - s.getV y) (noBorrowFlag (s.getV x) (s.getV y)))

/-- SHR Vx, Vy (R190, R193). -/
def execShiftRight (x y : Hex) (s : State) : Host.Outcome State Fault Refusal :=
  .next (s.setVThenFlag x (s.shiftSource x y >>> 1) (shiftRightFlag (s.shiftSource x y)))

/-- SUBN Vx, Vy (R191): Vy - Vx. -/
def execSubReverse (x y : Hex) (s : State) : Host.Outcome State Fault Refusal :=
  .next (s.setVThenFlag x (s.getV y - s.getV x) (noBorrowFlag (s.getV y) (s.getV x)))

/-- SHL Vx, Vy (R192, R193). -/
def execShiftLeft (x y : Hex) (s : State) : Host.Outcome State Fault Refusal :=
  .next (s.setVThenFlag x (s.shiftSource x y <<< 1) (shiftLeftFlag (s.shiftSource x y)))

/-- RND Vx, kk (R194, D21): a free byte AND kk. -/
def execRandom (x : Hex) (kk : Byte) (s : State) : Host.Outcome State Fault Refusal :=
  .next (s.takeRandom.setV x (s.nextRandom &&& kk))

end Sys2Proof.Machine
end

