-- ==== Sys2Proof/Machine/HostCalls.lean ====
section
/-! DEFINITION. The host's calls other than the cycle: key events (40_cycle.md R135, R136), the frame tick
(R131) and the program load (70_reset_and_hazards.md R342, R343); and the schedule of R137. -/

namespace Sys2Proof.Machine

/-- The condition every call but a load starts with: Halted does nothing (R311, D23). -/
def State.unlessHalted (s : State) (act : State → State) : State :=
  match s.fault with
  | some _ => s
  | none => act s

/-- A press while waiting for a key latches into V[x], every time (R135, D36). -/
def State.latchKey (s : State) (k : Hex) : State :=
  match s.wait with
  | .waitingForKey x _ => (s.setV x (hexToByte k)).setWait (.waitingForKey x (some k))
  | .running => s
  | .waitingForDisplayRefresh _ _ _ => s

/-- `key_press(k)` (R135). -/
def State.keyPress (s : State) (k : Hex) : State :=
  s.unlessHalted fun t => { t with keys := t.keys.set k true }.latchKey k

/-- The release of the key latched last ends the wait; any other leaves it (R136, D20). -/
def State.endKeyWait (s : State) (k : Hex) : State :=
  match s.wait with
  | .waitingForKey _ (some l) => if l = k then s.setWait .running else s
  | .waitingForKey _ none => s
  | .running => s
  | .waitingForDisplayRefresh _ _ _ => s

/-- `key_release(k)` (R136). -/
def State.keyRelease (s : State) (k : Hex) : State :=
  s.unlessHalted fun t => { t with keys := t.keys.set k false }.endKeyWait k

/-- A pending draw runs and the engine resumes; if the draw faults, WAIT stays (R131). -/
def State.finishDraw (s : State) : State :=
  match s.wait with
  | .waitingForDisplayRefresh x y n => s.withinRange n.val fun t => (t.paint x y n).setWait .running
  | .running => s
  | .waitingForKey _ _ => s

/-- `frame_tick()` (R131): the timers first, then a pending draw (D37). -/
def State.frameTick (s : State) : State := s.unlessHalted fun t => t.decrementTimers.finishDraw

/-- `PROGRAM_BASE` and `MAX_PROGRAM` (00_scope.md section 5). -/
abbrev programBase : Nat := 0x200

abbrev maxProgram : Nat := 3584

/-- Memory 80..4095 zeroed, the glyph bytes 0..79 as they are (R342, D16). -/
def Memory.clearProgram (m : Memory) : Memory := m.filter fun c => decide (c.1 < 80)

/-- The image's bytes at consecutive addresses from a; a byte 0 is what an unlisted address reads as
there, above the glyphs, and is not listed. -/
def Memory.imageCells (a : Nat) : List Byte → Memory
  | [] => []
  | b :: bs => if b = 0 then Memory.imageCells (a + 1) bs else (a, b) :: Memory.imageCells (a + 1) bs

/-- What a load leaves in memory: the glyph bytes, zero, and the image from PROGRAM_BASE (R342). -/
def Memory.load (m : Memory) (image : List Byte) : Memory :=
  Memory.clearProgram m ++ Memory.imageCells programBase image

/-- `load_program(image)` (R342, R343), from any state, Halted included. The parameters stay (R344);
so do the model's own two fields, the draw counter and the calls to come. -/
def State.loadProgram (s : State) (image : List Byte) : State :=
  if image.length > maxProgram then s.raise .programTooLarge (.value image.length) 0 0
  else { State.construct s.cfg with
    mem := Memory.load s.mem image
    pc := BitVec.ofNat 16 programBase
    draws := s.draws
    calls := s.calls }

/-- One frame of the source's schedule (R137, R138): the key events, then so many cycles, then one tick.
With `Config.cyclesPerFrame` it is the frame of a host of which nothing more is known. -/
def frameCalls (cyclesPerFrame : Nat) (events : List HostCall) : List HostCall :=
  events ++ List.replicate cyclesPerFrame .cycle ++ [.frameTick]

/-- The frame of the session's own host (R138). -/
def sessionFrame (events : List HostCall) : List HostCall := frameCalls Config.cyclesPerFrame events

end Sys2Proof.Machine
end

