-- ==== Sys2Proof/Machine/Cycle.lean ====
section
/-! DEFINITION. The cycle (40_cycle.md R121 to R125): fetch, decode, advance pc, execute; and what each
host call does. -/

namespace Sys2Proof.Machine

/-- Fetch, decode, advance, execute: the cycle of a Running engine (R121, R123 to R125). -/
def State.fetchExecute (s : State) : Host.Outcome State Fault Refusal :=
  if s.pc.toNat > lastFetch then
    .next (s.raiseAt .fetchOutOfRange (.value s.pc.toNat) s.pc)
  else
    match decode [s.readByte s.pc.toNat, s.readByte (s.pc.toNat + 1)] with
    | .ok (i, _) => exec i s.advancePc
    | .error _ =>
      .next (s.raiseAt .decodeError (.failingWord (s.wordAt s.pc.toNat) s.pc) s.pc)

/-- `cycle()` (R121): nothing when Halted or suspended (R122). -/
def State.cycle (s : State) : Host.Outcome State Fault Refusal :=
  match s.condition with
  | .halted => .next s
  | .suspended => .next s
  | .running => s.fetchExecute

/-- What a host call does (R137). -/
def State.serve (s : State) : HostCall → Host.Outcome State Fault Refusal
  | .cycle => s.cycle
  | .frameTick => .next s.frameTick
  | .keyPress k => .next (s.keyPress k)
  | .keyRelease k => .next (s.keyRelease k)
  | .loadProgram image => .next (s.loadProgram image)

/-- The host's next call (R137): the head of `calls`, and `cycle` when there is none. Log entry 2. -/
def State.nextCall (s : State) : HostCall := s.calls.headD .cycle

/-- The state once the next call is taken from `calls`. -/
def State.takeCall (s : State) : State := { s with calls := s.calls.tail }

/-- Store an instruction word where the next fetch reads it: big-endian at pc (R66). -/
def State.placeWord (s : State) (w : Word) : State :=
  (s.writeByte s.pc.toNat (highByte w)).writeByte (s.pc.toNat + 1) (lowByte w)

/-- The state in which the next step fetches: Running, pc where a fetch is possible (R67), a cycle as
the next call. A state that is so already is unchanged. -/
def State.readyToFetch (s : State) : State :=
  { s with
    fault := none
    wait := .running
    pc := if s.pc.toNat > lastFetch then BitVec.ofNat 16 programBase else s.pc
    calls := match s.calls with
      | [] => []
      | c :: rest => .cycle :: c :: rest }

end Sys2Proof.Machine
end

