-- ==== Sys2Proof/Machine/Step.lean ====
section
/-! DEFINITION. One step of the machine: the next host call (40_cycle.md R137); and withFetchWord, which
puts an instruction where the next step fetches it. -/

namespace Sys2Proof.Machine

/-- One step of the one agent (00_scope.md R4): the host's next call, taken from `calls`; a cycle when
there is none. Log entry 2. -/
def step (s : State) : Host.Outcome State Fault Refusal :=
  s.takeCall.serve s.nextCall

/-- s with the instruction whose bits are w (as spec/opcode_table.json numbers them) stored where step
fetches next. On the state after reset it changes the two bytes at pc = 0 and nothing else: it stands for
the program load from outside. Log entry 17. -/
def State.withFetchWord (s : State) (nbits w : Nat) : State :=
  s.readyToFetch.placeWord (BitVec.ofNat 16 (w % 2 ^ nbits))

end Sys2Proof.Machine
end

