-- ==== Sys2Proof/Safety.lean ====
section
/-! DEFINITION. The terms that claims are stated in: what a step leaves unchanged (the frame), what
raising a fault does, what a sprite covers (written from 44_display.md independently of the scan), and
the machine's invariant. -/

namespace Sys2Proof.Machine

/-! ### Frames -/

/-- The pieces of the state. -/
inductive Part where
  | cfg | v | i | pc | stack | sp | dt | st | keys | fb | wait | fault | mem | draws | calls
  deriving DecidableEq, Repr

/-- The piece p is the same in both states; for memory, every byte reads the same. -/
def Part.Same (s t : State) : Part → Prop
  | .cfg => t.cfg = s.cfg
  | .v => ∀ k, t.getV k = s.getV k
  | .i => t.i = s.i
  | .pc => t.pc = s.pc
  | .stack => t.stack = s.stack
  | .sp => t.sp = s.sp
  | .dt => t.dt = s.dt
  | .st => t.st = s.st
  | .keys => t.keys = s.keys
  | .fb => t.fb = s.fb
  | .wait => t.wait = s.wait
  | .fault => t.fault = s.fault
  | .mem => ∀ a, t.readByte a = s.readByte a
  | .draws => t.draws = s.draws
  | .calls => t.calls = s.calls

/-- Everything but the named pieces is unchanged from s to t. -/
def Unchanged (s t : State) (but : List Part) : Prop := ∀ p : Part, p ∉ but → p.Same s t

/-- Every register but the named ones is unchanged from s to t. -/
def RegistersUnchanged (s t : State) (but : List Hex) : Prop := ∀ k, k ∉ but → t.getV k = s.getV k

/-- Every byte of memory outside the `width` bytes from `base` is unchanged from s to t. -/
def MemoryUnchangedOutside (s t : State) (base width : Nat) : Prop :=
  ∀ a, a < base ∨ base + width ≤ a → t.readByte a = s.readByte a

/-! ### Faults -/

/-- t is s with the fault raised about the instruction at a, and nothing else (R311, R313): the record
holds the kind, the info, the address a and, if a word lies at a, that word, big-endian. -/
def Raises (s t : State) (kind : FaultKind) (info : FaultInfo) (a : Word) : Prop :=
  ∃ w : Word, t = { s with fault := some { kind, info, addr := a, word := w } } ∧
    (a.toNat + 1 < 4096 →
      w.toNat = (s.readByte a.toNat).toNat * 256 + (s.readByte (a.toNat + 1)).toNat)

/-! ### What a sprite covers -/

/-- The sprite drawn with operands x, y, n from s has a bit of 1 that edge handling puts on pixel
(px, py): some row r < n and column c < 8, bit 7 - c of the byte at I + r (R250, R254, R255). -/
def Covers (s : State) (x y n : Hex) (px : Fin 64) (py : Fin 32) : Prop :=
  ∃ r c : Nat, r < n.val ∧ c < 8 ∧ (s.readByte (s.i.toNat + r)).toNat / 2 ^ (7 - c) % 2 = 1 ∧
    match s.cfg.quirks.spriteEdges with
    | .clip => (s.getV x).toNat % 64 + c = px.val ∧ (s.getV y).toNat % 32 + r = py.val
    | .wrap => ((s.getV x).toNat % 64 + c) % 64 = px.val ∧ ((s.getV y).toNat % 32 + r) % 32 = py.val

/-- The framebuffer and the registers of t are those of s after drawing the sprite (R253, R256): every
covered pixel is turned over and no other; VF is 1 if a covered pixel was on and 0 if none was; the
other registers stay. -/
def Drawn (s t : State) (x y n : Hex) : Prop :=
  (∀ px py, (Covers s x y n px py → t.fb.pixel px py = !s.fb.pixel px py) ∧
    (¬ Covers s x y n px py → t.fb.pixel px py = s.fb.pixel px py)) ∧
  ((∃ px py, Covers s x y n px py ∧ s.fb.pixel px py = true) → t.getV 15 = 1) ∧
  ((¬ ∃ px py, Covers s x y n px py ∧ s.fb.pixel px py = true) → t.getV 15 = 0) ∧
  RegistersUnchanged s t [15]

/-! ### The invariant -/

/-- While the engine is suspended, pc is frozen just after the instruction that suspended it, which is
still in memory; a latched key is in its register and is held down (R33, R34, R74, R135). -/
def State.SuspensionOk (s : State) : Prop :=
  match s.wait with
  | .running => True
  | .waitingForKey x latched =>
    2 ≤ s.pc.toNat ∧ s.pc.toNat ≤ 0x1000 ∧ s.wordAt (s.pc.toNat - 2) = encodeWord (.waitKey x) ∧
      ∀ k, latched = some k → s.getV x = BitVec.ofNat 8 k.val ∧ s.keys[k] = true
  | .waitingForDisplayRefresh x y n =>
    2 ≤ s.pc.toNat ∧ s.pc.toNat ≤ 0x1000 ∧ s.wordAt (s.pc.toNat - 2) = encodeWord (.draw x y n) ∧
      s.cfg.quirks.displayWait = true

/-- What every state of a run satisfies: memory in canonical form inside the 4096 bytes (R60), the glyph
parameter legal (R341), pc at most 0x10FE and every stack slot at most 0x1000 (R127), the suspension
consistent, and no DrawWhilePending fault (R257). -/
structure State.Inv (s : State) : Prop where
  memory : Memory.Wf s.cfg.glyphs s.mem
  glyphs : s.cfg.wf = true
  pc : s.pc.toNat ≤ 0x10FE
  stack : ∀ k : Hex, s.stack[k].toNat ≤ 0x1000
  suspension : s.SuspensionOk
  fault : ∀ r, s.fault = some r → r.kind ≠ .drawWhilePending

/-- Only the quirk record is replaced (R40): to compare two machines that differ in nothing else. -/
def State.withQuirks (s : State) (q : Quirks) : State := { s with cfg := { s.cfg with quirks := q } }

/-- The quirk records agree on every field that the instruction's rule reads (R40, R42). -/
def QuirksAgree (i : Instr) (q r : Quirks) : Prop :=
  match i with
  | .orReg _ _ | .andReg _ _ | .xorReg _ _ => q.resetVfOnLogic = r.resetVfOnLogic
  | .storeRegisters _ | .loadRegisters _ => q.indexIncrement = r.indexIncrement
  | .draw _ _ _ => q.displayWait = r.displayWait ∧ q.spriteEdges = r.spriteEdges
  | .shiftRight _ _ | .shiftLeft _ _ => q.shiftSource = r.shiftSource
  | .jumpOffset _ => q.jumpRegister = r.jumpRegister
  | .clearScreen | .ret | .sysCall _ | .jump _ | .call _ | .skipEqImm _ _ | .skipNeImm _ _
  | .skipEqReg _ _ | .loadImm _ _ | .addImm _ _ | .move _ _ | .addReg _ _ | .sub _ _
  | .subReverse _ _ | .skipNeReg _ _ | .loadIndex _ | .random _ _ | .skipKeyPressed _
  | .skipKeyNotPressed _ | .loadDelay _ | .waitKey _ | .setDelay _ | .setSound _ | .addIndex _
  | .loadGlyph _ | .storeBcd _ => True

/-- The answer with the quirk record of its state replaced. -/
def replaceQuirks (q : Quirks) : Host.Outcome State Fault Refusal → Host.Outcome State Fault Refusal
  | .next t => .next (t.withQuirks q)
  | .fault r => .fault r
  | .refused r => .refused r

end Sys2Proof.Machine
end

