-- ==== Sys2Proof/Certificates/Slice0/Obligations.lean ====
section
/-! DEFINITION. The statements for the provers. Each formalises rules of spec/ that its docstring names;
OBLIGATIONS.json lists them. In every statement about `exec`, s is the state after the cycle has advanced
pc (R123), so the instruction stands at `s.pc - 2`. -/

open Sys2Proof Sys2Proof.Machine

/-! ### Encoding (30_encoding.md) -/

/-- Every well-formed instruction, with every operand, decodes from its own two bytes and leaves the bytes
after it (R88, R96, R99). -/
def Obligations.DecodeOfEncodeIsTheInstruction : Prop :=
  ∀ (i : Instr) (rest : List Byte), i.wellFormed = true → decode (encode i ++ rest) = .ok (i, rest)

/-- A word that decodes is the encoding of what it decodes to, and that is well-formed: no bit of a
recognised word is a don't-care (R96: "Two words that decode to the same instruction are the same word",
an inference the spec marks as its own). -/
def Obligations.DecodedWordIsItsOwnEncoding : Prop :=
  ∀ (w : Word) (i : Instr), decodeWord w = .instr i → encodeWord i = w ∧ i.wellFormed = true

/-- The families with a second switch, and family 0, word by word (R89 to R94). -/
def Obligations.FamiliesDecodeAsListed : Prop :=
  ∀ w : Word,
    (w = 0x00E0#16 → decodeWord w = .instr .clearScreen) ∧
    (w = 0x00EE#16 → decodeWord w = .instr .ret) ∧
    (nibbleA w = 0x0#4 → w ≠ 0x00E0#16 → w ≠ 0x00EE#16 → decodeWord w = .instr (.sysCall (fieldNnn w))) ∧
    (nibbleA w = 0x5#4 → decodeWord w =
      if nibbleD w = 0x0#4 then .instr (.skipEqReg (fieldX w) (fieldY w)) else .decodeFailure) ∧
    (nibbleA w = 0x8#4 → decodeWord w =
      if nibbleD w = 0x0#4 then .instr (.move (fieldX w) (fieldY w))
      else if nibbleD w = 0x1#4 then .instr (.orReg (fieldX w) (fieldY w))
      else if nibbleD w = 0x2#4 then .instr (.andReg (fieldX w) (fieldY w))
      else if nibbleD w = 0x3#4 then .instr (.xorReg (fieldX w) (fieldY w))
      else if nibbleD w = 0x4#4 then .instr (.addReg (fieldX w) (fieldY w))
      else if nibbleD w = 0x5#4 then .instr (.sub (fieldX w) (fieldY w))
      else if nibbleD w = 0x6#4 then .instr (.shiftRight (fieldX w) (fieldY w))
      else if nibbleD w = 0x7#4 then .instr (.subReverse (fieldX w) (fieldY w))
      else if nibbleD w = 0xE#4 then .instr (.shiftLeft (fieldX w) (fieldY w))
      else .decodeFailure) ∧
    (nibbleA w = 0x9#4 → decodeWord w =
      if nibbleD w = 0x0#4 then .instr (.skipNeReg (fieldX w) (fieldY w)) else .decodeFailure) ∧
    (nibbleA w = 0xE#4 → decodeWord w =
      if fieldKk w = 0x9E#8 then .instr (.skipKeyPressed (fieldX w))
      else if fieldKk w = 0xA1#8 then .instr (.skipKeyNotPressed (fieldX w))
      else .decodeFailure) ∧
    (nibbleA w = 0xF#4 → decodeWord w =
      if fieldKk w = 0x07#8 then .instr (.loadDelay (fieldX w))
      else if fieldKk w = 0x0A#8 then .instr (.waitKey (fieldX w))
      else if fieldKk w = 0x15#8 then .instr (.setDelay (fieldX w))
      else if fieldKk w = 0x18#8 then .instr (.setSound (fieldX w))
      else if fieldKk w = 0x1E#8 then .instr (.addIndex (fieldX w))
      else if fieldKk w = 0x29#8 then .instr (.loadGlyph (fieldX w))
      else if fieldKk w = 0x33#8 then .instr (.storeBcd (fieldX w))
      else if fieldKk w = 0x55#8 then .instr (.storeRegisters (fieldX w))
      else if fieldKk w = 0x65#8 then .instr (.loadRegisters (fieldX w))
      else .decodeFailure)

/-- The words that fail to decode are exactly the five sets of R95 (the counts, inferences of the spec, are
not stated). -/
def Obligations.DecodeFailuresAreTheListedWords : Prop :=
  ∀ w : Word, decodeWord w = .decodeFailure ↔
    (nibbleA w = 0x5#4 ∧ nibbleD w ≠ 0x0#4) ∨
    (nibbleA w = 0x8#4 ∧
      nibbleD w ∈ [0x8#4, 0x9#4, 0xA#4, 0xB#4, 0xC#4, 0xD#4, 0xF#4]) ∨
    (nibbleA w = 0x9#4 ∧ nibbleD w ≠ 0x0#4) ∨
    (nibbleA w = 0xE#4 ∧ fieldKk w ∉ [0x9E#8, 0xA1#8]) ∨
    (nibbleA w = 0xF#4 ∧
      fieldKk w ∉ [0x07#8, 0x0A#8, 0x15#8, 0x18#8, 0x1E#8, 0x29#8, 0x33#8, 0x55#8, 0x65#8])

/-- The words the spec's worked examples and decoder vectors list (95_test_vectors.md S4 to S8, V-E1 to
V-E17) decode as listed there. -/
def Obligations.ListedWordsDecode : Prop :=
  decodeWord 0x00E0#16 = .instr .clearScreen ∧ decodeWord 0x00EE#16 = .instr .ret ∧
  decodeWord 0x1ABC#16 = .instr (.jump 0xABC#12) ∧ decodeWord 0xF265#16 = .instr (.loadRegisters 2) ∧
  decodeWord 0x0000#16 = .instr (.sysCall 0x000#12) ∧ decodeWord 0x00E1#16 = .instr (.sysCall 0x0E1#12) ∧
  decodeWord 0x0FFF#16 = .instr (.sysCall 0xFFF#12) ∧ decodeWord 0x2ABC#16 = .instr (.call 0xABC#12) ∧
  decodeWord 0x5120#16 = .instr (.skipEqReg 1 2) ∧ decodeWord 0x8AB0#16 = .instr (.move 10 11) ∧
  decodeWord 0x8ABE#16 = .instr (.shiftLeft 10 11) ∧ decodeWord 0x9120#16 = .instr (.skipNeReg 1 2) ∧
  decodeWord 0xB123#16 = .instr (.jumpOffset 0x123#12) ∧ decodeWord 0xD000#16 = .instr (.draw 0 0 0) ∧
  decodeWord 0xE09E#16 = .instr (.skipKeyPressed 0) ∧
  decodeWord 0xEFA1#16 = .instr (.skipKeyNotPressed 15) ∧
  decodeWord 0xF007#16 = .instr (.loadDelay 0) ∧ decodeWord 0xF00A#16 = .instr (.waitKey 0) ∧
  decodeWord 0xF015#16 = .instr (.setDelay 0) ∧ decodeWord 0xF018#16 = .instr (.setSound 0) ∧
  decodeWord 0xF01E#16 = .instr (.addIndex 0) ∧ decodeWord 0xF029#16 = .instr (.loadGlyph 0) ∧
  decodeWord 0xF033#16 = .instr (.storeBcd 0) ∧ decodeWord 0xF055#16 = .instr (.storeRegisters 0) ∧
  decodeWord 0xF065#16 = .instr (.loadRegisters 0) ∧
  decodeWord 0x5121#16 = .decodeFailure ∧ decodeWord 0x801F#16 = .decodeFailure ∧
  decodeWord 0x8AB8#16 = .decodeFailure ∧ decodeWord 0x8ABD#16 = .decodeFailure ∧
  decodeWord 0x8ABF#16 = .decodeFailure ∧ decodeWord 0x912F#16 = .decodeFailure ∧
  decodeWord 0x9AB7#16 = .decodeFailure ∧ decodeWord 0xE0A0#16 = .decodeFailure ∧
  decodeWord 0xF000#16 = .decodeFailure ∧ decodeWord 0xF030#16 = .decodeFailure ∧
  decodeWord 0xF075#16 = .decodeFailure ∧ decodeWord 0xF085#16 = .decodeFailure ∧
  decodeWord 0xF090#16 = .decodeFailure ∧ decodeWord 0xF0FF#16 = .decodeFailure ∧
  decodeWord 0xFFFF#16 = .decodeFailure

/-! ### The cycle (40_cycle.md) -/

/-- A Running cycle whose two bytes at pc decode to i IS exec of i, on the state whose next call has been
taken (the model's own `calls`, log entry 2) and whose pc has advanced by 2 (R121, R123, R125). -/
def Obligations.StepRunsTheDecodedInstruction : Prop :=
  ∀ (s : State) (i : Instr), s.nextCall = .cycle → s.fault = none → s.wait = .running →
    s.pc.toNat ≤ 0x0FFE →
    decode [s.readByte s.pc.toNat, s.readByte (s.pc.toNat + 1)] = .ok (i, []) →
    i.wellFormed = true ∧ step s = exec i { s with calls := s.calls.tail, pc := s.pc + 2 }

/-- R67: at pc >= 0x0FFF the cycle raises FetchOutOfRange and changes no other state; that the step
takes the call from the model's own field `calls` is the model's choice (log entry 2). At pc <= 0x0FFE it raises no such fault. -/
def Obligations.FetchBeyondMemoryFaults : Prop :=
  ∀ s : State, s.nextCall = .cycle → s.fault = none → s.wait = .running →
    (0x0FFF ≤ s.pc.toNat → ∃ t, step s = .next t ∧
      Raises { s with calls := s.calls.tail } t .fetchOutOfRange (.value s.pc.toNat) s.pc) ∧
    (s.pc.toNat ≤ 0x0FFE → ∃ t, step s = .next t ∧ ∀ r, t.fault = some r → r.kind ≠ .fetchOutOfRange)

/-- R124: a fetched word that fails to decode raises DecodeError with the word and pc; pc is not advanced
and no other state changes. That the step takes the call from the model's own field `calls` is the model's choice
(log entry 2). -/
def Obligations.UndecodableWordFaults : Prop :=
  ∀ s : State, s.nextCall = .cycle → s.fault = none → s.wait = .running → s.pc.toNat ≤ 0x0FFE →
    ∀ w : Word,
      w.toNat = (s.readByte s.pc.toNat).toNat * 256 + (s.readByte (s.pc.toNat + 1)).toNat →
      decodeWord w = .decodeFailure →
      step s = .next { s with
        calls := s.calls.tail
        fault := some { kind := .decodeError, info := .failingWord w s.pc, addr := s.pc, word := w } }

/-- R122: a suspended cycle changes no state at all, so a step that ends a suspension is no cycle. That
the step takes the call from the model's own field `calls` is the model's choice (log entry 2). -/
def Obligations.SuspendedCycleChangesNothing : Prop :=
  ∀ s : State, s.fault = none → s.wait ≠ .running →
    (s.nextCall = .cycle → step s = .next { s with calls := s.calls.tail }) ∧
    (∀ t, step s = .next t → t.wait = .running → s.nextCall ≠ .cycle)

/-- In Halted, a cycle, a tick and key events have no effect on the core (R311, D23); the step only takes the
call from the model's own field `calls` (the model's choice, log entry 2). -/
def Obligations.HaltedIsTerminalButForALoad : Prop :=
  ∀ (s : State) (r : FaultRecord), s.fault = some r → (∀ image, s.nextCall ≠ .loadProgram image) →
    step s = .next { s with calls := s.calls.tail }

/-- Every instruction, on every state, and every step answer a next state: every fault of R312 is a
halted state of the machine (R311), never an end of the model (log entry 4). -/
def Obligations.NothingEndsTheMachine : Prop :=
  (∀ (i : Instr) (s : State), ∃ t, exec i s = .next t) ∧ ∀ s : State, ∃ t, step s = .next t

/-! ### Control transfer (41_control_flow.md) -/

/-- SYS (R151): under `fault` it raises SysUnsupported with nnn, under `nop` it does nothing. -/
def Obligations.SysFaultsOrDoesNothing : Prop :=
  ∀ (nnn : BitVec 12) (s : State),
    (nnn ≠ 0x0E0#12 → nnn ≠ 0x0EE#12 → decodeWord (packAddr 0x0#4 nnn) = .instr (.sysCall nnn)) ∧
    (s.cfg.sysPolicy = .nop → exec (.sysCall nnn) s = .next s) ∧
    (s.cfg.sysPolicy = .fault → ∃ t, exec (.sysCall nnn) s = .next t ∧
      Raises s t .sysUnsupported (.value nnn.toNat) (s.pc - 2))

/-- RET (R152): SP down by one and pc from the slot, which keeps its value; on an empty stack
StackUnderflow. -/
def Obligations.ReturnPopsTheStack : Prop :=
  ∀ s : State, decodeWord 0x00EE#16 = .instr .ret ∧
    (∀ k : Hex, s.sp.val = k.val + 1 → ∃ t, exec .ret s = .next t ∧
      t.sp.val = k.val ∧ t.pc = s.stack[k] ∧ Unchanged s t [.sp, .pc]) ∧
    (s.sp.val = 0 → ∃ t, exec .ret s = .next t ∧ Raises s t .stackUnderflow (.value 0) (s.pc - 2))

/-- JP (R153): pc becomes nnn. -/
def Obligations.JumpSetsPc : Prop :=
  ∀ (nnn : BitVec 12) (s : State), decodeWord (packAddr 0x1#4 nnn) = .instr (.jump nnn) ∧
    ∃ t, exec (.jump nnn) s = .next t ∧ t.pc.toNat = nnn.toNat ∧ Unchanged s t [.pc]

/-- CALL (R154): the advanced pc into slot SP, SP up by one, pc becomes nnn; on a full stack
StackOverflow. -/
def Obligations.CallPushesTheReturnAddress : Prop :=
  ∀ (nnn : BitVec 12) (s : State), decodeWord (packAddr 0x2#4 nnn) = .instr (.call nnn) ∧
    (∀ k : Hex, s.sp.val = k.val → ∃ t, exec (.call nnn) s = .next t ∧
      t.stack[k] = s.pc ∧ (∀ j : Hex, j ≠ k → t.stack[j] = s.stack[j]) ∧ t.sp.val = k.val + 1 ∧
      t.pc.toNat = nnn.toNat ∧ Unchanged s t [.stack, .sp, .pc]) ∧
    (s.sp.val = 16 → ∃ t, exec (.call nnn) s = .next t ∧
      Raises s t .stackOverflow (.value 0) (s.pc - 2))

/-- A CALL and then a RET come back to the instruction after the CALL and leave everything but the slot they
used as it was: every slot other than number SP, and all the rest (R152, R154). -/
def Obligations.ReturnUndoesCall : Prop :=
  ∀ (nnn : BitVec 12) (s : State), s.sp.val < 16 →
    ∃ t u, exec (.call nnn) s = .next t ∧ exec .ret t = .next u ∧ u.pc = s.pc ∧ u.sp = s.sp ∧
      (∀ j : Hex, j.val ≠ s.sp.val → u.stack[j] = s.stack[j]) ∧ Unchanged s u [.stack]

/-- The four compare skips (R155 to R158): pc moves on by 2 when the comparison holds, and nothing else
changes. -/
def Obligations.CompareSkips : Prop :=
  ∀ (x y : Hex) (kk : Byte) (s : State),
    decodeWord (packImm 0x3#4 x kk) = .instr (.skipEqImm x kk) ∧
    decodeWord (packImm 0x4#4 x kk) = .instr (.skipNeImm x kk) ∧
    decodeWord (packReg 0x5#4 x y 0x0#4) = .instr (.skipEqReg x y) ∧
    decodeWord (packReg 0x9#4 x y 0x0#4) = .instr (.skipNeReg x y) ∧
    (∃ t, exec (.skipEqImm x kk) s = .next t ∧
      t.pc = (if s.getV x = kk then s.pc + 2 else s.pc) ∧ Unchanged s t [.pc]) ∧
    (∃ t, exec (.skipNeImm x kk) s = .next t ∧
      t.pc = (if s.getV x = kk then s.pc else s.pc + 2) ∧ Unchanged s t [.pc]) ∧
    (∃ t, exec (.skipEqReg x y) s = .next t ∧
      t.pc = (if s.getV x = s.getV y then s.pc + 2 else s.pc) ∧ Unchanged s t [.pc]) ∧
    (∃ t, exec (.skipNeReg x y) s = .next t ∧
      t.pc = (if s.getV x = s.getV y then s.pc else s.pc + 2) ∧ Unchanged s t [.pc])

/-- JP V0 (R159): pc becomes nnn plus V[0], or under `vx` plus the register that nnn's top nibble names;
the sum is not reduced modulo 4096. -/
def Obligations.JumpWithOffsetAddsTheRegister : Prop :=
  ∀ (nnn : BitVec 12) (s : State), decodeWord (packAddr 0xB#4 nnn) = .instr (.jumpOffset nnn) ∧
    ∃ t, exec (.jumpOffset nnn) s = .next t ∧ Unchanged s t [.pc] ∧
      (s.cfg.quirks.jumpRegister = .v0 → t.pc.toNat = nnn.toNat + (s.getV 0).toNat) ∧
      (s.cfg.quirks.jumpRegister = .vx →
        ∀ r : Hex, r.val = nnn.toNat / 256 → t.pc.toNat = nnn.toNat + (s.getV r).toNat)

/-! ### Register ALU (42_register_alu.md) -/

/-- LD Vx,kk; ADD Vx,kk; LD Vx,Vy (R181 to R183): the result in V[x], no flag, nothing else. -/
def Obligations.LoadsAndImmediateAdd : Prop :=
  ∀ (x y : Hex) (kk : Byte) (s : State),
    decodeWord (packImm 0x6#4 x kk) = .instr (.loadImm x kk) ∧
    decodeWord (packImm 0x7#4 x kk) = .instr (.addImm x kk) ∧
    decodeWord (packReg 0x8#4 x y 0x0#4) = .instr (.move x y) ∧
    (∃ t, exec (.loadImm x kk) s = .next t ∧ t.getV x = kk ∧ RegistersUnchanged s t [x] ∧
      Unchanged s t [.v]) ∧
    (∃ t, exec (.addImm x kk) s = .next t ∧ (t.getV x).toNat = ((s.getV x).toNat + kk.toNat) % 256 ∧
      RegistersUnchanged s t [x] ∧ Unchanged s t [.v]) ∧
    (∃ t, exec (.move x y) s = .next t ∧ t.getV x = s.getV y ∧ RegistersUnchanged s t [x] ∧
      Unchanged s t [.v])

/-- OR, AND, XOR (R184 to R187): the result in V[x], then VF set to 0 if the quirk is on. -/
def Obligations.LogicOperations : Prop :=
  ∀ (x y : Hex) (s : State),
    decodeWord (packReg 0x8#4 x y 0x1#4) = .instr (.orReg x y) ∧
    decodeWord (packReg 0x8#4 x y 0x2#4) = .instr (.andReg x y) ∧
    decodeWord (packReg 0x8#4 x y 0x3#4) = .instr (.xorReg x y) ∧
    (∃ t, exec (.orReg x y) s = .next t ∧ Unchanged s t [.v] ∧ ∀ k, t.getV k =
      if s.cfg.quirks.resetVfOnLogic = true ∧ k = 15 then 0
      else if k = x then s.getV x ||| s.getV y else s.getV k) ∧
    (∃ t, exec (.andReg x y) s = .next t ∧ Unchanged s t [.v] ∧ ∀ k, t.getV k =
      if s.cfg.quirks.resetVfOnLogic = true ∧ k = 15 then 0
      else if k = x then s.getV x &&& s.getV y else s.getV k) ∧
    (∃ t, exec (.xorReg x y) s = .next t ∧ Unchanged s t [.v] ∧ ∀ k, t.getV k =
      if s.cfg.quirks.resetVfOnLogic = true ∧ k = 15 then 0
      else if k = x then s.getV x ^^^ s.getV y else s.getV k)

/-- ADD Vx,Vy (R188): the sum modulo 256 in V[x], then VF the carry, which stays when x = 15. -/
def Obligations.AddRegistersWithCarry : Prop :=
  ∀ (x y : Hex) (s : State), decodeWord (packReg 0x8#4 x y 0x4#4) = .instr (.addReg x y) ∧
    ∃ t, exec (.addReg x y) s = .next t ∧ Unchanged s t [.v] ∧ ∀ k, (t.getV k).toNat =
      if k = 15 then (if (s.getV x).toNat + (s.getV y).toNat > 255 then 1 else 0)
      else if k = x then ((s.getV x).toNat + (s.getV y).toNat) % 256 else (s.getV k).toNat

/-- SUB and SUBN (R189, R191): the wrapping difference in V[x], then VF = 1 for no borrow. -/
def Obligations.SubtractRegistersNoBorrow : Prop :=
  ∀ (x y : Hex) (s : State),
    decodeWord (packReg 0x8#4 x y 0x5#4) = .instr (.sub x y) ∧
    decodeWord (packReg 0x8#4 x y 0x7#4) = .instr (.subReverse x y) ∧
    (∃ t, exec (.sub x y) s = .next t ∧ Unchanged s t [.v] ∧ ∀ k, (t.getV k).toNat =
      if k = 15 then (if (s.getV x).toNat ≥ (s.getV y).toNat then 1 else 0)
      else if k = x then ((s.getV x).toNat + 256 - (s.getV y).toNat) % 256 else (s.getV k).toNat) ∧
    (∃ t, exec (.subReverse x y) s = .next t ∧ Unchanged s t [.v] ∧ ∀ k, (t.getV k).toNat =
      if k = 15 then (if (s.getV y).toNat ≥ (s.getV x).toNat then 1 else 0)
      else if k = x then ((s.getV y).toNat + 256 - (s.getV x).toNat) % 256 else (s.getV k).toNat)

/-- SHR and SHL (R190, R192, R193): the source by the quirk, moved by one bit into V[x], then the bit
shifted out into VF. -/
def Obligations.ShiftsByOneBit : Prop :=
  ∀ (x y : Hex) (s : State) (src : Byte),
    src = (match s.cfg.quirks.shiftSource with | .second => s.getV y | .first => s.getV x) →
    decodeWord (packReg 0x8#4 x y 0x6#4) = .instr (.shiftRight x y) ∧
    decodeWord (packReg 0x8#4 x y 0xE#4) = .instr (.shiftLeft x y) ∧
    (∃ t, exec (.shiftRight x y) s = .next t ∧ Unchanged s t [.v] ∧ ∀ k, (t.getV k).toNat =
      if k = 15 then src.toNat % 2 else if k = x then src.toNat / 2 else (s.getV k).toNat) ∧
    (∃ t, exec (.shiftLeft x y) s = .next t ∧ Unchanged s t [.v] ∧ ∀ k, (t.getV k).toNat =
      if k = 15 then src.toNat / 128 else if k = x then src.toNat * 2 % 256 else (s.getV k).toNat)

/-- RND (R194): V[x] is a byte of which nothing is known, ANDed with kk, so its bits outside kk are 0; one
draw is taken. The byte is the model's free value, log entry 3. -/
def Obligations.RandomByteIsMasked : Prop :=
  ∀ (x : Hex) (kk : Byte) (s : State),
    decodeWord (packImm 0xC#4 x kk) = .instr (.random x kk) ∧
    ∃ t, exec (.random x kk) s = .next t ∧ t.getV x = Config.randomByte s.draws &&& kk ∧
      t.getV x &&& ~~~kk = 0 ∧ t.draws = s.draws + 1 ∧ RegistersUnchanged s t [x] ∧
      Unchanged s t [.v, .draws]

/-! ### Index register and memory transfers (43_index_memory.md) -/

/-- LD I (R222): I becomes nnn. -/
def Obligations.LoadIndexSetsI : Prop :=
  ∀ (nnn : BitVec 12) (s : State), decodeWord (packAddr 0xA#4 nnn) = .instr (.loadIndex nnn) ∧
    ∃ t, exec (.loadIndex nnn) s = .next t ∧ t.i.toNat = nnn.toNat ∧ Unchanged s t [.i]

/-- ADD I,Vx (R223): the sum, and past 0xFFFF the sum modulo 0x10000 or IndexOverflow, by INDEX_OVERFLOW;
VF is not written. -/
def Obligations.AddIndexWrapsOrFaults : Prop :=
  ∀ (x : Hex) (s : State) (sum : Nat), sum = s.i.toNat + (s.getV x).toNat →
    decodeWord (packImm 0xF#4 x 0x1E#8) = .instr (.addIndex x) ∧
    (sum ≤ 0xFFFF → ∃ t, exec (.addIndex x) s = .next t ∧ t.i.toNat = sum ∧ Unchanged s t [.i]) ∧
    (sum > 0xFFFF → s.cfg.indexOverflow = .wrap → ∃ t, exec (.addIndex x) s = .next t ∧
      t.i.toNat = sum % 0x10000 ∧ Unchanged s t [.i]) ∧
    (sum > 0xFFFF → s.cfg.indexOverflow = .fault → ∃ t, exec (.addIndex x) s = .next t ∧
      Raises s t .indexOverflow (.value sum) (s.pc - 2))

/-- LD F (R224): I is five times the digit, which is V[x]'s low nibble, or all of V[x] under `full`. -/
def Obligations.LoadGlyphPointsAtTheDigit : Prop :=
  ∀ (x : Hex) (s : State), decodeWord (packImm 0xF#4 x 0x29#8) = .instr (.loadGlyph x) ∧
    ∃ t, exec (.loadGlyph x) s = .next t ∧ Unchanged s t [.i] ∧
      (s.cfg.glyphIndexMode = .lowNibble → t.i.toNat = 5 * ((s.getV x).toNat % 16)) ∧
      (s.cfg.glyphIndexMode = .full → t.i.toNat = 5 * (s.getV x).toNat)

/-- LD B (R225): hundreds, tens and units of V[x] in the three bytes from I, no other byte and not I;
MemOutOfRange with no byte written if the third byte is beyond memory. -/
def Obligations.StoreDecimalDigits : Prop :=
  ∀ (x : Hex) (s : State), decodeWord (packImm 0xF#4 x 0x33#8) = .instr (.storeBcd x) ∧
    (s.i.toNat + 2 < 4096 → ∃ t, exec (.storeBcd x) s = .next t ∧
      (t.readByte s.i.toNat).toNat = (s.getV x).toNat / 100 ∧
      (t.readByte (s.i.toNat + 1)).toNat = (s.getV x).toNat / 10 % 10 ∧
      (t.readByte (s.i.toNat + 2)).toNat = (s.getV x).toNat % 10 ∧
      MemoryUnchangedOutside s t s.i.toNat 3 ∧ Unchanged s t [.mem]) ∧
    (4096 ≤ s.i.toNat + 2 → ∃ t, exec (.storeBcd x) s = .next t ∧
      Raises s t .memOutOfRange (.value (s.i.toNat + 2)) (s.pc - 2))

/-- LD [I],Vx (R226, R221): register k at I + k for k up to x, no other byte; I advanced by x + 1 or not
at all, by the quirk; MemOutOfRange with no byte written if the last byte is beyond memory. -/
def Obligations.StoreRegistersToMemory : Prop :=
  ∀ (x : Hex) (s : State), decodeWord (packImm 0xF#4 x 0x55#8) = .instr (.storeRegisters x) ∧
    (s.i.toNat + x.val < 4096 → ∃ t, exec (.storeRegisters x) s = .next t ∧
      (∀ k : Hex, k ≤ x → t.readByte (s.i.toNat + k.val) = s.getV k) ∧
      MemoryUnchangedOutside s t s.i.toNat (x.val + 1) ∧
      t.i.toNat = (if s.cfg.quirks.indexIncrement = true then s.i.toNat + x.val + 1 else s.i.toNat) ∧
      Unchanged s t [.mem, .i]) ∧
    (4096 ≤ s.i.toNat + x.val → ∃ t, exec (.storeRegisters x) s = .next t ∧
      Raises s t .memOutOfRange (.value (s.i.toNat + x.val)) (s.pc - 2))

/-- LD Vx,[I] (R227, R221): byte I + k into register k for k up to x, the registers above x unchanged; I
advanced by x + 1 or not at all, by the quirk; MemOutOfRange with no register written if the last byte is
beyond memory. -/
def Obligations.LoadRegistersFromMemory : Prop :=
  ∀ (x : Hex) (s : State), decodeWord (packImm 0xF#4 x 0x65#8) = .instr (.loadRegisters x) ∧
    (s.i.toNat + x.val < 4096 → ∃ t, exec (.loadRegisters x) s = .next t ∧
      (∀ k : Hex, t.getV k = if k ≤ x then s.readByte (s.i.toNat + k.val) else s.getV k) ∧
      t.i.toNat = (if s.cfg.quirks.indexIncrement = true then s.i.toNat + x.val + 1 else s.i.toNat) ∧
      Unchanged s t [.v, .i]) ∧
    (4096 ≤ s.i.toNat + x.val → ∃ t, exec (.loadRegisters x) s = .next t ∧
      Raises s t .memOutOfRange (.value (s.i.toNat + x.val)) (s.pc - 2))

/-- A store of V[0..x] and a load of V[0..x] from the same place give those registers back, whatever all
registers hold in between and whatever the increment quirk (R221, R226, R227). -/
def Obligations.LoadRegistersUndoesStoreRegisters : Prop :=
  ∀ (x : Hex) (s : State) (others : Vector Byte 16), s.i.toNat + x.val < 4096 →
    ∃ t u, exec (.storeRegisters x) s = .next t ∧
      exec (.loadRegisters x) { t with i := s.i, v := others } = .next u ∧
      ∀ k : Hex, k ≤ x → u.getV k = s.getV k

/-! ### Display (44_display.md) -/

/-- CLS (R251): every pixel off and nothing else. -/
def Obligations.ClearScreenTurnsEveryPixelOff : Prop :=
  ∀ s : State, decodeWord 0x00E0#16 = .instr .clearScreen ∧
    ∃ t, exec .clearScreen s = .next t ∧ (∀ px py, t.fb.pixel px py = false) ∧ Unchanged s t [.fb]

/-- DRW (R252), met while no draw is pending. Under `display_wait` it only stashes its operands in WAIT, the
next cycle is a no-op, and the next tick draws the sprite and resumes, or raises MemOutOfRange with nothing
drawn. Otherwise it draws now (R250, R253 to R256), its n bytes in memory, or raises MemOutOfRange with nothing
drawn (R220). n = 0 reads no byte. -/
def Obligations.DrawDefersOrDraws : Prop :=
  ∀ (x y n : Hex) (s : State), (∀ a b c, s.wait ≠ .waitingForDisplayRefresh a b c) →
    decodeWord (packReg 0xD#4 x y (BitVec.ofFin (w := 4) n)) = .instr (.draw x y n) ∧
    (s.cfg.quirks.displayWait = true → ∃ t, exec (.draw x y n) s = .next t ∧
      t.wait = .waitingForDisplayRefresh x y n ∧ Unchanged s t [.wait] ∧
      (s.fault = none → t.cycle = .next t ∧
        ((n = 0 ∨ s.i.toNat + n.val - 1 < 4096) → Drawn s t.frameTick x y n ∧
          t.frameTick.wait = .running ∧ Unchanged t t.frameTick [.fb, .v, .wait, .dt, .st]) ∧
        (n ≠ 0 → 4096 ≤ s.i.toNat + n.val - 1 →
          Raises t.decrementTimers t.frameTick .memOutOfRange (.value (s.i.toNat + n.val - 1)) (s.pc - 2)))) ∧
    (s.cfg.quirks.displayWait = false → (n = 0 ∨ s.i.toNat + n.val - 1 < 4096) →
      ∃ t, exec (.draw x y n) s = .next t ∧ Drawn s t x y n ∧ Unchanged s t [.fb, .v]) ∧
    (s.cfg.quirks.displayWait = false → n ≠ 0 → 4096 ≤ s.i.toNat + n.val - 1 →
      ∃ t, exec (.draw x y n) s = .next t ∧
        Raises s t .memOutOfRange (.value (s.i.toNat + n.val - 1)) (s.pc - 2))

/-- The same sprite drawn twice from the same registers leaves the framebuffer as it was, whatever was on it,
and the second draw reports a collision exactly when a covered pixel was off at first; so on a cleared screen
the first draw reports none and the second one exactly when the sprite covers some pixel (R253, R256;
95_test_vectors.md S12, S13). x and y are not VF, which the first draw writes. -/
def Obligations.DrawingTwiceRestoresTheScreen : Prop :=
  ∀ (x y n : Hex) (s t : State), s.wait = .running → s.cfg.quirks.displayWait = false → x ≠ 15 → y ≠ 15 →
    (n = 0 ∨ s.i.toNat + n.val - 1 < 4096) → exec (.draw x y n) s = .next t →
    ∃ u, exec (.draw x y n) t = .next u ∧ u.fb = s.fb ∧
      ((∃ px py, Covers s x y n px py ∧ s.fb.pixel px py = false) → u.getV 15 = 1) ∧
      ((¬ ∃ px py, Covers s x y n px py ∧ s.fb.pixel px py = false) → u.getV 15 = 0) ∧
      ((∀ px py, s.fb.pixel px py = false) → t.getV 15 = 0 ∧
        ((∃ px py, Covers s x y n px py) → u.getV 15 = 1) ∧
        ((¬ ∃ px py, Covers s x y n px py) → u.getV 15 = 0))

/-- A DRW met while a draw is pending raises DrawWhilePending and does not touch the pending draw (R257).
No run reaches it: see EveryStepKeepsTheInvariant. -/
def Obligations.DrawWhilePendingFaults : Prop :=
  ∀ (x y n a b c : Hex) (s : State), s.wait = .waitingForDisplayRefresh a b c →
    ∃ t, exec (.draw x y n) s = .next t ∧
      Raises s t .drawWhilePending (.value (s.pc - 2).toNat) (s.pc - 2)

/-! ### Keys and timers (45_keys_timers.md) -/

/-- SKP and SKNP (R280, R281): the key named by all of V[x]; a value above 15 is never pressed. -/
def Obligations.KeySkips : Prop :=
  ∀ (x : Hex) (s : State),
    decodeWord (packImm 0xE#4 x 0x9E#8) = .instr (.skipKeyPressed x) ∧
    decodeWord (packImm 0xE#4 x 0xA1#8) = .instr (.skipKeyNotPressed x) ∧
    ∃ t u, exec (.skipKeyPressed x) s = .next t ∧ Unchanged s t [.pc] ∧
      exec (.skipKeyNotPressed x) s = .next u ∧ Unchanged s u [.pc] ∧
      (∀ k : Hex, (s.getV x).toNat = k.val → s.keys[k] = true → t.pc = s.pc + 2 ∧ u.pc = s.pc) ∧
      (∀ k : Hex, (s.getV x).toNat = k.val → s.keys[k] = false → t.pc = s.pc ∧ u.pc = s.pc + 2) ∧
      (15 < (s.getV x).toNat → t.pc = s.pc ∧ u.pc = s.pc + 2)

/-- LD Vx,K (R282): the engine waits with nothing latched, and V[x] is not written yet. -/
def Obligations.WaitKeySuspends : Prop :=
  ∀ (x : Hex) (s : State), decodeWord (packImm 0xF#4 x 0x0A#8) = .instr (.waitKey x) ∧
    ∃ t, exec (.waitKey x) s = .next t ∧ t.wait = .waitingForKey x none ∧ Unchanged s t [.wait]

/-- A key wait from its instruction to its end (R282, R135, R136, R132, R348). Before a press, a cycle and a
release leave it, and so does a tick; a press of k writes k into V[x] and keeps waiting, through a cycle, a tick
and a release of another key, until the release of k; a second press, of j, writes j into V[x], and then the
release of k does not end the wait (unless k = j) and the release of j does. At the end V[x] holds the key
pressed last and pc is where it was frozen. That nothing else ends it: KeyWaitIsEndedByNothingElse. -/
def Obligations.KeyWaitEndsOnReleaseOfTheLatchedKey : Prop :=
  ∀ (x k j : Hex) (s t : State), s.fault = none → exec (.waitKey x) s = .next t →
    t.cycle = .next t ∧ t.frameTick.wait = .waitingForKey x none ∧
    (t.keyRelease j).wait = .waitingForKey x none ∧
    ((t.keyRelease j).keyPress k).wait = .waitingForKey x (some k) ∧
    ((t.keyPress k).getV x).toNat = k.val ∧
    (t.keyPress k).cycle = .next (t.keyPress k) ∧
    (t.keyPress k).frameTick.wait = .waitingForKey x (some k) ∧
    (j ≠ k → ((t.keyPress k).keyRelease j).wait = .waitingForKey x (some k)) ∧
    ((t.keyPress k).keyRelease k).wait = .running ∧
    (((t.keyPress k).keyRelease k).getV x).toNat = k.val ∧
    ((t.keyPress k).keyRelease k).pc = s.pc ∧
    ((t.keyPress k).keyPress j).wait = .waitingForKey x (some j) ∧
    (j ≠ k → (((t.keyPress k).keyPress j).keyRelease k).wait = .waitingForKey x (some j)) ∧
    (((t.keyPress k).keyPress j).keyRelease j).wait = .running ∧
    ((((t.keyPress k).keyPress j).keyRelease j).getV x).toNat = j.val ∧
    (((t.keyPress k).keyPress j).keyRelease j).pc = s.pc

/-- LD Vx,DT; LD DT,Vx; LD ST,Vx (R283 to R285); the tone follows ST at once (R287, D13). -/
def Obligations.TimerInstructions : Prop :=
  ∀ (x : Hex) (s : State),
    decodeWord (packImm 0xF#4 x 0x07#8) = .instr (.loadDelay x) ∧
    decodeWord (packImm 0xF#4 x 0x15#8) = .instr (.setDelay x) ∧
    decodeWord (packImm 0xF#4 x 0x18#8) = .instr (.setSound x) ∧
    (∃ t, exec (.loadDelay x) s = .next t ∧ t.getV x = s.dt ∧ RegistersUnchanged s t [x] ∧
      Unchanged s t [.v]) ∧
    (∃ t, exec (.setDelay x) s = .next t ∧ t.dt = s.getV x ∧ Unchanged s t [.dt]) ∧
    (∃ t, exec (.setSound x) s = .next t ∧ t.st = s.getV x ∧ (t.tone = true ↔ s.getV x ≠ 0) ∧
      Unchanged s t [.st])

/-! ### Host calls (40_cycle.md, 70_reset_and_hazards.md) -/

/-- The frame tick (R131, R286, R132): each timer down by one but not below 0, in every state that is not
Halted; with no draw pending nothing else changes, so a key wait goes on. The step takes the call from the
model's own field `calls` (the model's choice, log entry 2). -/
def Obligations.FrameTickCountsTheTimersDown : Prop :=
  ∀ s : State, s.nextCall = .frameTick → s.fault = none →
    ∃ t, step s = .next t ∧ t.dt.toNat = s.dt.toNat - 1 ∧ t.st.toNat = s.st.toNat - 1 ∧
      t.calls = s.calls.tail ∧
      ((∀ x y n, s.wait ≠ .waitingForDisplayRefresh x y n) → Unchanged s t [.dt, .st, .calls])

/-- A timer at v is at 0 after v ticks and stays there (R286): n ticks take it to v - n, never below 0,
whether the engine is Running or in a key wait, which however many ticks do not end (R132). A tick in a display
wait is FrameTickRunsThePendingDraw's. The n ticks are n calls in the model's own field `calls`, which the run
takes one by one (the model's choice, log entry 2). -/
def Obligations.TimersReachZeroAndStay : Prop :=
  ∀ (n : Nat) (s : State), s.fault = none → (∀ x y h, s.wait ≠ .waitingForDisplayRefresh x y h) →
    ∃ t, Host.Core.run Sys2Proof.core n { s with calls := List.replicate n .frameTick } = .next t ∧
      t.dt.toNat = s.dt.toNat - n ∧ t.st.toNat = s.st.toNat - n ∧ Unchanged s t [.dt, .st, .calls] ∧
      t.calls = []

/-- The tick with a draw pending (R131): the stashed draw runs against the current registers, I, memory
and framebuffer, and the engine resumes; if its bytes are not all in memory it halts with MemOutOfRange, the
timers already decremented, WAIT and the screen as they were. The step takes the call from the model's own field
`calls` (the model's choice, log entry 2). -/
def Obligations.FrameTickRunsThePendingDraw : Prop :=
  ∀ (x y n : Hex) (s : State), s.nextCall = .frameTick → s.fault = none →
    s.wait = .waitingForDisplayRefresh x y n →
    ((n = 0 ∨ s.i.toNat + n.val - 1 < 4096) → ∃ t, step s = .next t ∧ t.wait = .running ∧
      Drawn s t x y n ∧ t.dt.toNat = s.dt.toNat - 1 ∧ t.st.toNat = s.st.toNat - 1 ∧
      t.calls = s.calls.tail ∧ Unchanged s t [.fb, .v, .wait, .dt, .st, .calls]) ∧
    (n ≠ 0 → 4096 ≤ s.i.toNat + n.val - 1 → ∃ t u, step s = .next t ∧
      u.dt.toNat = s.dt.toNat - 1 ∧ u.st.toNat = s.st.toNat - 1 ∧ u.calls = s.calls.tail ∧
      Unchanged s u [.dt, .st, .calls] ∧
      Raises u t .memOutOfRange (.value (s.i.toNat + n.val - 1)) (s.pc - 2))

/-- Deferring a draw to the next tick makes no difference to what the next instruction sees (R347, R74,
D35): DRW under `display_wait` and then a tick leave what DRW without it and then a tick leave. -/
def Obligations.DeferredDrawEqualsImmediateDraw : Prop :=
  ∀ (x y n : Hex) (s : State) (q : Quirks), s.fault = none → s.wait = .running →
    s.cfg.quirks = { q with displayWait := true } → (n = 0 ∨ s.i.toNat + n.val - 1 < 4096) →
    ∃ t u, exec (.draw x y n) s = .next t ∧
      exec (.draw x y n) (s.withQuirks { q with displayWait := false }) = .next u ∧
      t.frameTick.withQuirks { q with displayWait := false } = u.frameTick ∧
      t.frameTick.wait = .running

/-- key_press (R135): k enters KEYS, and in a key wait k is written into V[x] and latched, whatever was latched
before; in Halted nothing. The step takes the call from the model's own field `calls` (the model's choice, log
entry 2). -/
def Obligations.KeyPressLatches : Prop :=
  ∀ (k : Hex) (s : State), s.nextCall = .keyPress k →
    ((∃ r, s.fault = some r) → step s = .next { s with calls := s.calls.tail }) ∧
    (s.fault = none → ∃ t, step s = .next t ∧ t.calls = s.calls.tail ∧
      (∀ j : Hex, t.keys[j] = if j = k then true else s.keys[j]) ∧
      (∀ (x : Hex) (l : Option Hex), s.wait = .waitingForKey x l →
        t.wait = .waitingForKey x (some k) ∧ (t.getV x).toNat = k.val ∧ RegistersUnchanged s t [x] ∧
        Unchanged s t [.keys, .wait, .v, .calls]) ∧
      ((∀ x l, s.wait ≠ .waitingForKey x l) → Unchanged s t [.keys, .calls]))

/-- key_release (R136): k leaves KEYS, and a key wait whose latched key is k ends, V[x] as it was; any other wait
stays; in Halted nothing. The step takes the call from the model's own field `calls` (the model's choice, log
entry 2). -/
def Obligations.KeyReleaseEndsTheWaitOfTheLatchedKey : Prop :=
  ∀ (k : Hex) (s : State), s.nextCall = .keyRelease k →
    ((∃ r, s.fault = some r) → step s = .next { s with calls := s.calls.tail }) ∧
    (s.fault = none → ∃ t, step s = .next t ∧ t.calls = s.calls.tail ∧
      (∀ j : Hex, t.keys[j] = if j = k then false else s.keys[j]) ∧
      (∀ x : Hex, s.wait = .waitingForKey x (some k) →
        t.wait = .running ∧ Unchanged s t [.keys, .wait, .calls]) ∧
      ((∀ x : Hex, s.wait ≠ .waitingForKey x (some k)) → Unchanged s t [.keys, .calls]))

/-- load_program (R342, R343): from any state, memory above the glyphs cleared and the image at 0x200, the
glyph bytes as they were, everything else at its start value, pc = 0x200; the parameters stay. An image of more
than 3584 bytes raises ProgramTooLarge with its length, address 0 and word 0 (R313), and changes nothing else.
That `draws` stays and the step takes the call from `calls` are the model's choices (log entries 3 and 2). -/
def Obligations.ProgramLoadResets : Prop :=
  ∀ (image : List Byte) (s : State), s.nextCall = .loadProgram image →
    (image.length ≤ 3584 → ∃ t, step s = .next t ∧
      (∀ a, a < 80 → t.readByte a = s.readByte a) ∧
      (∀ a, 80 ≤ a → a < 0x200 → t.readByte a = 0) ∧
      (∀ k (h : k < image.length), t.readByte (0x200 + k) = image[k]) ∧
      (∀ a, 0x200 + image.length ≤ a → a < 4096 → t.readByte a = 0) ∧
      (∀ k : Hex, t.getV k = 0) ∧ t.i = 0 ∧ t.sp = 0 ∧ (∀ k : Hex, t.stack[k] = 0) ∧ t.dt = 0 ∧
      t.st = 0 ∧ t.tone = false ∧ (∀ k : Hex, t.keys[k] = false) ∧ (∀ px py, t.fb.pixel px py = false) ∧
      t.wait = .running ∧ t.fault = none ∧ t.pc = 0x200 ∧ t.cfg = s.cfg ∧ t.draws = s.draws ∧
      t.calls = s.calls.tail) ∧
    (3584 < image.length → step s = .next { s with
      calls := s.calls.tail
      fault := some { kind := .programTooLarge, info := .value image.length, addr := 0, word := 0 } })

/-! ### Reset (70_reset_and_hazards.md) -/

/-- Power-on (R340) with any parameters, GLYPHS among them. That the state holds the parameters, in `cfg`, is the
model's choice (log entry 1); its own two fields are left out (log entries 2 and 3). -/
def Obligations.PowerOnState : Prop :=
  ∀ c : Config, ∀ s : State, s = State.construct c →
    (∀ a (h : a < 80), s.readByte a = c.glyphs[a]) ∧ (∀ a, 80 ≤ a → a < 4096 → s.readByte a = 0) ∧
    (∀ k : Hex, s.getV k = 0) ∧ s.i = 0 ∧ s.pc = 0 ∧ s.sp = 0 ∧ (∀ k : Hex, s.stack[k] = 0) ∧
    s.dt = 0 ∧ s.st = 0 ∧ s.tone = false ∧ (∀ k : Hex, s.keys[k] = false) ∧
    (∀ px py, s.fb.pixel px py = false) ∧ s.wait = .running ∧ s.fault = none ∧ s.cfg = c

/-- A cycle before any load halts on the first word of glyph 0 (R345, an inference the spec marks as its
own). -/
def Obligations.FirstCycleBeforeALoadHalts : Prop :=
  ∃ t, step State.reset = .next t ∧
    t.fault = some { kind := .decodeError, info := .failingWord 0xF090#16 0, addr := 0, word := 0xF090#16 } ∧
    Unchanged State.reset t [.fault]

/-- The invariant holds after reset (R340, R341, R127). -/
def Obligations.ResetStateHasTheInvariant : Prop := State.reset.Inv

/-! ### Rules of the whole machine -/

/-- Every step keeps the invariant: canonical memory inside 4096 bytes, pc at most 0x10FE and stack slots
at most 0x1000 (R127), a suspension frozen just after its instruction, with a latched key in its register
and held down (R33, R74, R135), no DrawWhilePending (R257). -/
def Obligations.EveryStepKeepsTheInvariant : Prop :=
  ∀ s t : State, s.Inv → step s = .next t → t.Inv

/-- R344: the parameters are supplied at construction and no step changes them. That the state holds them, in
`cfg`, is the model's choice (log entry 1). -/
def Obligations.ConfigurationNeverChanges : Prop :=
  (∀ c : Config, (State.construct c).cfg = c) ∧ ∀ s t : State, step s = .next t → t.cfg = s.cfg

/-- Faults of instructions are precise (R314, R315): an instruction that raises a fault changes FAULT and
nothing else, and each kind belongs to the instructions of R312. -/
def Obligations.ExecutionFaultsArePrecise : Prop :=
  ∀ (i : Instr) (s t : State) (r : FaultRecord), s.fault = none → exec i s = .next t →
    t.fault = some r →
    t = { s with fault := some r } ∧ r.addr = s.pc - 2 ∧
      ((∃ x, (i = .storeBcd x ∨ i = .storeRegisters x ∨ i = .loadRegisters x) ∧ r.kind = .memOutOfRange) ∨
       (∃ x y n, i = .draw x y n ∧ (r.kind = .memOutOfRange ∨ r.kind = .drawWhilePending)) ∨
       (∃ nnn, i = .call nnn ∧ r.kind = .stackOverflow) ∨ (i = .ret ∧ r.kind = .stackUnderflow) ∨
       (∃ nnn, i = .sysCall nnn ∧ r.kind = .sysUnsupported) ∨
       (∃ x, i = .addIndex x ∧ r.kind = .indexOverflow))

/-- Which instructions write which piece of the state (R20 to R29, R33, R35, R41): no instruction writes KEYS or
the parameters, and each other piece is written by none but those listed. The parameters in `cfg` (log entry 1),
`calls`, which no instruction writes (log entry 2), and `draws`, which RND alone does (log entry 3), are the
model's own. -/
def Obligations.OnlyNamedInstructionsWriteEachPiece : Prop :=
  ∀ (i : Instr) (s t : State), exec i s = .next t →
    t.keys = s.keys ∧ t.cfg = s.cfg ∧ t.calls = s.calls ∧
    (t.v ≠ s.v →
      (∃ x kk, i = .loadImm x kk ∨ i = .addImm x kk ∨ i = .random x kk) ∨
      (∃ x y, i = .move x y ∨ i = .orReg x y ∨ i = .andReg x y ∨ i = .xorReg x y ∨ i = .addReg x y ∨
        i = .sub x y ∨ i = .subReverse x y ∨ i = .shiftRight x y ∨ i = .shiftLeft x y) ∨
      (∃ x y n, i = .draw x y n) ∨ ∃ x, i = .loadDelay x ∨ i = .loadRegisters x) ∧
    (t.pc ≠ s.pc →
      i = .ret ∨ (∃ nnn, i = .jump nnn ∨ i = .call nnn ∨ i = .jumpOffset nnn) ∨
      (∃ x kk, i = .skipEqImm x kk ∨ i = .skipNeImm x kk) ∨
      (∃ x y, i = .skipEqReg x y ∨ i = .skipNeReg x y) ∨
      ∃ x, i = .skipKeyPressed x ∨ i = .skipKeyNotPressed x) ∧
    (t.fault ≠ s.fault →
      i = .ret ∨ (∃ nnn, i = .sysCall nnn ∨ i = .call nnn) ∨ (∃ x y n, i = .draw x y n) ∨
      ∃ x, i = .addIndex x ∨ i = .storeBcd x ∨ i = .storeRegisters x ∨ i = .loadRegisters x) ∧
    (t.stack ≠ s.stack → ∃ nnn, i = .call nnn) ∧
    (t.sp ≠ s.sp → i = .ret ∨ ∃ nnn, i = .call nnn) ∧
    (t.dt ≠ s.dt → ∃ x, i = .setDelay x) ∧
    (t.st ≠ s.st → ∃ x, i = .setSound x) ∧
    (t.i ≠ s.i → (∃ nnn, i = .loadIndex nnn) ∨
      ∃ x, i = .addIndex x ∨ i = .loadGlyph x ∨ i = .storeRegisters x ∨ i = .loadRegisters x) ∧
    (t.fb ≠ s.fb → i = .clearScreen ∨ ∃ x y n, i = .draw x y n) ∧
    (t.wait ≠ s.wait → (∃ x, i = .waitKey x) ∨ ∃ x y n, i = .draw x y n) ∧
    (t.mem ≠ s.mem → ∃ x, i = .storeBcd x ∨ i = .storeRegisters x) ∧
    (t.draws ≠ s.draws → ∃ x kk, i = .random x kk)

/-- VF is written as a flag by exactly the instructions of R44; any other instruction changes VF only as
its own destination register. -/
def Obligations.OnlyFlagInstructionsWriteVF : Prop :=
  ∀ (i : Instr) (s t : State), exec i s = .next t → t.getV 15 ≠ s.getV 15 →
    (∃ x y, i = .orReg x y ∨ i = .andReg x y ∨ i = .xorReg x y ∨ i = .addReg x y ∨ i = .sub x y ∨
      i = .subReverse x y ∨ i = .shiftRight x y ∨ i = .shiftLeft x y) ∨
    (∃ x y n, i = .draw x y n) ∨ (∃ kk, i = .loadImm 15 kk ∨ i = .addImm 15 kk ∨ i = .random 15 kk) ∨
    (∃ y, i = .move 15 y) ∨ i = .loadDelay 15 ∨ i = .loadRegisters 15

/-- Each quirk is read only by the instructions that R40 names for it (R42): replacing the quirk record by
one that agrees on the fields an instruction's rule reads changes nothing else in the answer. -/
def Obligations.QuirksAreReadOnlyWhereNamed : Prop :=
  ∀ (i : Instr) (s : State) (q : Quirks), QuirksAgree i s.cfg.quirks q →
    exec i (s.withQuirks q) = replaceQuirks q (exec i s)

/-- A stored byte is what the next fetch reads (R73): after any step, the next cycle of a Running engine
decodes the two bytes that memory now holds at pc. Here for LD [I],Vx, of x >= 1, storing over the word it
falls through to. -/
def Obligations.StoredCodeIsFetchedNext : Prop :=
  ∀ (x : Hex) (i : Instr) (s t : State), 1 ≤ x.val → s.calls = [] → s.fault = none → s.wait = .running →
    s.i.toNat + x.val < 4096 → s.pc.toNat = s.i.toNat →
    exec (.storeRegisters x) s = .next t → decode [s.getV 0, s.getV 1] = .ok (i, []) →
    step t = exec i { t with pc := t.pc + 2 }

/-- Nothing ends a key wait but the release of the key latched in it and a program load (R132, R136, R322, R342):
every other step leaves the engine waiting for a key into the same register. Which call comes is the model's own
field `calls` (log entry 2). -/
def Obligations.KeyWaitIsEndedByNothingElse : Prop :=
  ∀ (x : Hex) (l : Option Hex) (s t : State), s.wait = .waitingForKey x l → step s = .next t →
    (∃ k, s.nextCall = .keyRelease k ∧ l = some k ∧ s.fault = none) ∨
    (∃ image, s.nextCall = .loadProgram image ∧ image.length ≤ 3584) ∨
    ((s.fault = none → ∀ k, s.nextCall = .keyPress k → t.wait = .waitingForKey x (some k)) ∧
     (s.fault ≠ none ∨ (∀ k, s.nextCall ≠ .keyPress k) → t.wait = .waitingForKey x l))

/-- The state after reset is the one constructed with the default quirks (R40), the other parameters at their
defaults (D6, D9, D12) and a legal GLYPHS (R341). That State.reset takes the defaults is the model's choice (log
entry 1). -/
def Obligations.ResetStateHasTheDefaultParameters : Prop :=
  State.reset = State.construct Config.default ∧
  State.reset.cfg.quirks.resetVfOnLogic = true ∧ State.reset.cfg.quirks.indexIncrement = true ∧
  State.reset.cfg.quirks.displayWait = true ∧ State.reset.cfg.quirks.spriteEdges = .clip ∧
  State.reset.cfg.quirks.shiftSource = .second ∧ State.reset.cfg.quirks.jumpRegister = .v0 ∧
  State.reset.cfg.sysPolicy = .fault ∧ State.reset.cfg.glyphIndexMode = .lowNibble ∧
  State.reset.cfg.indexOverflow = .wrap ∧ State.reset.cfg.wf = true
end

