-- ==== Sys2Proof/Laws/Decode.lean ====
section
/-! SUPPORT. The fields of a packed word and the word of its fields (30_encoding.md R80, R83 to R86), and
for each row of R88 the decoding of its word, with every operand. -/

namespace Sys2Proof

/-! ### Fields of a packed word -/

@[simp] theorem nibbleA_packAddr (a : BitVec 4) (nnn : BitVec 12) : nibbleA (packAddr a nnn) = a := by
  apply BitVec.eq_of_getLsbD_eq
  intro i hi
  simp only [nibbleA, packAddr, BitVec.getLsbD_extractLsb', BitVec.getLsbD_append, hi]
  rw [if_neg (by omega)]
  simp

@[simp] theorem fieldNnn_packAddr (a : BitVec 4) (nnn : BitVec 12) : fieldNnn (packAddr a nnn) = nnn := by
  apply BitVec.eq_of_getLsbD_eq
  intro i hi
  simp only [fieldNnn, packAddr, BitVec.getLsbD_extractLsb', BitVec.getLsbD_append, hi]
  rw [if_pos (by omega)]
  simp

@[simp] theorem nibbleA_packImm (a : BitVec 4) (x : Hex) (kk : Byte) : nibbleA (packImm a x kk) = a := by
  apply BitVec.eq_of_getLsbD_eq
  intro i hi
  simp only [nibbleA, packImm, BitVec.getLsbD_extractLsb', BitVec.getLsbD_append, hi]
  rw [if_neg (by omega), if_neg (by omega)]
  simp [show 12 + i - 8 - 4 = i by omega]

@[simp] theorem fieldX_packImm (a : BitVec 4) (x : Hex) (kk : Byte) : fieldX (packImm a x kk) = x := by
  have h : (packImm a x kk).extractLsb' 8 4 = BitVec.ofFin (w := 4) x := by
    apply BitVec.eq_of_getLsbD_eq
    intro i hi
    simp only [packImm, BitVec.getLsbD_extractLsb', BitVec.getLsbD_append, hi]
    rw [if_neg (by omega), if_pos (by omega)]
    simp [show 8 + i - 8 = i by omega]
  rw [fieldX, h]

@[simp] theorem fieldKk_packImm (a : BitVec 4) (x : Hex) (kk : Byte) : fieldKk (packImm a x kk) = kk := by
  apply BitVec.eq_of_getLsbD_eq
  intro i hi
  simp only [fieldKk, packImm, BitVec.getLsbD_extractLsb', BitVec.getLsbD_append, hi]
  rw [if_pos (by omega)]
  simp

@[simp] theorem nibbleA_packReg (a : BitVec 4) (x y : Hex) (d : BitVec 4) :
    nibbleA (packReg a x y d) = a := by
  apply BitVec.eq_of_getLsbD_eq
  intro i hi
  simp only [nibbleA, packReg, BitVec.getLsbD_extractLsb', BitVec.getLsbD_append, hi]
  rw [if_neg (by omega), if_neg (by omega), if_neg (by omega)]
  simp [show 12 + i - 4 - 4 - 4 = i by omega]

@[simp] theorem fieldX_packReg (a : BitVec 4) (x y : Hex) (d : BitVec 4) :
    fieldX (packReg a x y d) = x := by
  have h : (packReg a x y d).extractLsb' 8 4 = BitVec.ofFin (w := 4) x := by
    apply BitVec.eq_of_getLsbD_eq
    intro i hi
    simp only [packReg, BitVec.getLsbD_extractLsb', BitVec.getLsbD_append, hi]
    rw [if_neg (by omega), if_neg (by omega), if_pos (by omega)]
    simp [show 8 + i - 4 - 4 = i by omega]
  rw [fieldX, h]

@[simp] theorem fieldY_packReg (a : BitVec 4) (x y : Hex) (d : BitVec 4) :
    fieldY (packReg a x y d) = y := by
  have h : (packReg a x y d).extractLsb' 4 4 = BitVec.ofFin (w := 4) y := by
    apply BitVec.eq_of_getLsbD_eq
    intro i hi
    simp only [packReg, BitVec.getLsbD_extractLsb', BitVec.getLsbD_append, hi]
    rw [if_neg (by omega), if_pos (by omega)]
    simp [show 4 + i - 4 = i by omega]
  rw [fieldY, h]

@[simp] theorem nibbleD_packReg (a : BitVec 4) (x y : Hex) (d : BitVec 4) :
    nibbleD (packReg a x y d) = d := by
  apply BitVec.eq_of_getLsbD_eq
  intro i hi
  simp only [nibbleD, packReg, BitVec.getLsbD_extractLsb', BitVec.getLsbD_append, hi]
  rw [if_pos (by omega)]
  simp

@[simp] theorem fieldN_packReg (a : BitVec 4) (x y : Hex) (d : BitVec 4) :
    fieldN (packReg a x y d) = d.toFin := congrArg BitVec.toFin (nibbleD_packReg a x y d)

/-! ### The word of its fields (R80) -/

theorem packAddr_fields (w : Word) : packAddr (nibbleA w) (fieldNnn w) = w := by
  apply BitVec.eq_of_getLsbD_eq
  intro i hi
  simp only [packAddr, nibbleA, fieldNnn, BitVec.getLsbD_append, BitVec.getLsbD_extractLsb']
  split
  · simp_all
  · simp [show i - 12 < 4 by omega, show 12 + (i - 12) = i by omega]

theorem packImm_fields (w : Word) : packImm (nibbleA w) (fieldX w) (fieldKk w) = w := by
  apply BitVec.eq_of_getLsbD_eq
  intro i hi
  simp only [packImm, nibbleA, fieldX, fieldKk, BitVec.ofFin_toFin, BitVec.getLsbD_append,
    BitVec.getLsbD_extractLsb']
  split
  · simp_all
  · split
    · simp [show i - 8 < 4 by omega, show 8 + (i - 8) = i by omega]
    · simp [show i - 8 - 4 < 4 by omega, show 12 + (i - 8 - 4) = i by omega]

theorem packReg_fields (w : Word) : packReg (nibbleA w) (fieldX w) (fieldY w) (nibbleD w) = w := by
  apply BitVec.eq_of_getLsbD_eq
  intro i hi
  simp only [packReg, nibbleA, nibbleD, fieldX, fieldY, BitVec.ofFin_toFin, BitVec.getLsbD_append,
    BitVec.getLsbD_extractLsb']
  split
  · simp_all
  · split
    · simp [show i - 4 < 4 by omega, show 4 + (i - 4) = i by omega]
    · split
      · simp [show i - 4 - 4 < 4 by omega, show 8 + (i - 4 - 4) = i by omega]
      · simp [show i - 4 - 4 - 4 < 4 by omega, show 12 + (i - 4 - 4 - 4) = i by omega]

/-! ### Bytes and words (R66) -/

@[simp] theorem wordOfBytes_bytes (w : Word) : wordOfBytes (highByte w) (lowByte w) = w := by
  apply BitVec.eq_of_getLsbD_eq
  intro i hi
  simp only [wordOfBytes, highByte, lowByte, BitVec.getLsbD_append, BitVec.getLsbD_extractLsb']
  split
  · simp_all
  · simp [show i - 8 < 8 by omega, show 8 + (i - 8) = i by omega]

/-- The word is high * 256 + low (R66). -/
theorem toNat_wordOfBytes (hi lo : Byte) : (wordOfBytes hi lo).toNat = hi.toNat * 256 + lo.toNat := by
  have h := lo.isLt
  rw [wordOfBytes, BitVec.toNat_append, Nat.shiftLeft_eq, ← Nat.shiftLeft_eq,
    ← Nat.shiftLeft_add_eq_or_of_lt h, Nat.shiftLeft_eq]

/-! ### The decoder -/

/-- Outside family 0 the two exact words do not matter (R82). -/
theorem decodeWord_of_nibbleA_ne {w : Word} (h : nibbleA w ≠ 0x0#4) : decodeWord w = decodeFamily w := by
  rw [decodeWord, if_neg (fun e => h (by rw [e]; rfl)), if_neg (fun e => h (by rw [e]; rfl))]

/-- `decode` on the two bytes of a word is `decodeWord` of the word. -/
theorem decode_pair (hi lo : Byte) (rest : List Byte) : decode (hi :: lo :: rest) =
    match decodeWord (wordOfBytes hi lo) with
    | .instr i => .ok (i, rest)
    | .decodeFailure => .error (.decodeFailure (wordOfBytes hi lo)) := rfl

section rows
variable (nnn : BitVec 12) (x y n : Hex) (kk : Byte)

theorem decodeWord_clearScreen : decodeWord 0x00E0#16 = .instr .clearScreen := rfl

theorem decodeWord_ret : decodeWord 0x00EE#16 = .instr .ret := rfl

theorem decodeWord_sysCall (h : nnn ≠ 0x0E0#12) (k : nnn ≠ 0x0EE#12) :
    decodeWord (packAddr 0x0#4 nnn) = .instr (.sysCall nnn) := by
  have e (w : Word) (hw : nnn ≠ fieldNnn w) : packAddr 0x0#4 nnn ≠ w := fun e =>
    hw (by rw [← e, fieldNnn_packAddr])
  rw [decodeWord, if_neg (e 0x00E0#16 h), if_neg (e 0x00EE#16 k)]
  simp [decodeFamily]

theorem decodeWord_jump : decodeWord (packAddr 0x1#4 nnn) = .instr (.jump nnn) := by
  simp [decodeWord_of_nibbleA_ne, decodeFamily]

theorem decodeWord_call : decodeWord (packAddr 0x2#4 nnn) = .instr (.call nnn) := by
  simp [decodeWord_of_nibbleA_ne, decodeFamily]

theorem decodeWord_skipEqImm : decodeWord (packImm 0x3#4 x kk) = .instr (.skipEqImm x kk) := by
  simp [decodeWord_of_nibbleA_ne, decodeFamily]

theorem decodeWord_skipNeImm : decodeWord (packImm 0x4#4 x kk) = .instr (.skipNeImm x kk) := by
  simp [decodeWord_of_nibbleA_ne, decodeFamily]

theorem decodeWord_skipEqReg : decodeWord (packReg 0x5#4 x y 0x0#4) = .instr (.skipEqReg x y) := by
  simp [decodeWord_of_nibbleA_ne, decodeFamily]

theorem decodeWord_loadImm : decodeWord (packImm 0x6#4 x kk) = .instr (.loadImm x kk) := by
  simp [decodeWord_of_nibbleA_ne, decodeFamily]

theorem decodeWord_addImm : decodeWord (packImm 0x7#4 x kk) = .instr (.addImm x kk) := by
  simp [decodeWord_of_nibbleA_ne, decodeFamily]

theorem decodeWord_move : decodeWord (packReg 0x8#4 x y 0x0#4) = .instr (.move x y) := by
  simp [decodeWord_of_nibbleA_ne, decodeFamily, decodeFamily8]

theorem decodeWord_orReg : decodeWord (packReg 0x8#4 x y 0x1#4) = .instr (.orReg x y) := by
  simp [decodeWord_of_nibbleA_ne, decodeFamily, decodeFamily8]

theorem decodeWord_andReg : decodeWord (packReg 0x8#4 x y 0x2#4) = .instr (.andReg x y) := by
  simp [decodeWord_of_nibbleA_ne, decodeFamily, decodeFamily8]

theorem decodeWord_xorReg : decodeWord (packReg 0x8#4 x y 0x3#4) = .instr (.xorReg x y) := by
  simp [decodeWord_of_nibbleA_ne, decodeFamily, decodeFamily8]

theorem decodeWord_addReg : decodeWord (packReg 0x8#4 x y 0x4#4) = .instr (.addReg x y) := by
  simp [decodeWord_of_nibbleA_ne, decodeFamily, decodeFamily8]

theorem decodeWord_sub : decodeWord (packReg 0x8#4 x y 0x5#4) = .instr (.sub x y) := by
  simp [decodeWord_of_nibbleA_ne, decodeFamily, decodeFamily8]

theorem decodeWord_shiftRight : decodeWord (packReg 0x8#4 x y 0x6#4) = .instr (.shiftRight x y) := by
  simp [decodeWord_of_nibbleA_ne, decodeFamily, decodeFamily8]

theorem decodeWord_subReverse : decodeWord (packReg 0x8#4 x y 0x7#4) = .instr (.subReverse x y) := by
  simp [decodeWord_of_nibbleA_ne, decodeFamily, decodeFamily8]

theorem decodeWord_shiftLeft : decodeWord (packReg 0x8#4 x y 0xE#4) = .instr (.shiftLeft x y) := by
  simp [decodeWord_of_nibbleA_ne, decodeFamily, decodeFamily8]

theorem decodeWord_skipNeReg : decodeWord (packReg 0x9#4 x y 0x0#4) = .instr (.skipNeReg x y) := by
  simp [decodeWord_of_nibbleA_ne, decodeFamily]

theorem decodeWord_loadIndex : decodeWord (packAddr 0xA#4 nnn) = .instr (.loadIndex nnn) := by
  simp [decodeWord_of_nibbleA_ne, decodeFamily]

theorem decodeWord_jumpOffset : decodeWord (packAddr 0xB#4 nnn) = .instr (.jumpOffset nnn) := by
  simp [decodeWord_of_nibbleA_ne, decodeFamily]

theorem decodeWord_random : decodeWord (packImm 0xC#4 x kk) = .instr (.random x kk) := by
  simp [decodeWord_of_nibbleA_ne, decodeFamily]

theorem decodeWord_draw :
    decodeWord (packReg 0xD#4 x y (BitVec.ofFin (w := 4) n)) = .instr (.draw x y n) := by
  simp [decodeWord_of_nibbleA_ne, decodeFamily]

theorem decodeWord_skipKeyPressed : decodeWord (packImm 0xE#4 x 0x9E#8) = .instr (.skipKeyPressed x) := by
  simp [decodeWord_of_nibbleA_ne, decodeFamily, decodeFamilyE]

theorem decodeWord_skipKeyNotPressed :
    decodeWord (packImm 0xE#4 x 0xA1#8) = .instr (.skipKeyNotPressed x) := by
  simp [decodeWord_of_nibbleA_ne, decodeFamily, decodeFamilyE]

theorem decodeWord_loadDelay : decodeWord (packImm 0xF#4 x 0x07#8) = .instr (.loadDelay x) := by
  simp [decodeWord_of_nibbleA_ne, decodeFamily, decodeFamilyF]

theorem decodeWord_waitKey : decodeWord (packImm 0xF#4 x 0x0A#8) = .instr (.waitKey x) := by
  simp [decodeWord_of_nibbleA_ne, decodeFamily, decodeFamilyF]

theorem decodeWord_setDelay : decodeWord (packImm 0xF#4 x 0x15#8) = .instr (.setDelay x) := by
  simp [decodeWord_of_nibbleA_ne, decodeFamily, decodeFamilyF]

theorem decodeWord_setSound : decodeWord (packImm 0xF#4 x 0x18#8) = .instr (.setSound x) := by
  simp [decodeWord_of_nibbleA_ne, decodeFamily, decodeFamilyF]

theorem decodeWord_addIndex : decodeWord (packImm 0xF#4 x 0x1E#8) = .instr (.addIndex x) := by
  simp [decodeWord_of_nibbleA_ne, decodeFamily, decodeFamilyF]

theorem decodeWord_loadGlyph : decodeWord (packImm 0xF#4 x 0x29#8) = .instr (.loadGlyph x) := by
  simp [decodeWord_of_nibbleA_ne, decodeFamily, decodeFamilyF]

theorem decodeWord_storeBcd : decodeWord (packImm 0xF#4 x 0x33#8) = .instr (.storeBcd x) := by
  simp [decodeWord_of_nibbleA_ne, decodeFamily, decodeFamilyF]

theorem decodeWord_storeRegisters : decodeWord (packImm 0xF#4 x 0x55#8) = .instr (.storeRegisters x) := by
  simp [decodeWord_of_nibbleA_ne, decodeFamily, decodeFamilyF]

theorem decodeWord_loadRegisters : decodeWord (packImm 0xF#4 x 0x65#8) = .instr (.loadRegisters x) := by
  simp [decodeWord_of_nibbleA_ne, decodeFamily, decodeFamilyF]

end rows

end Sys2Proof
end

