-- ==== Sys2Proof/Laws/Memory.lean ====
section
/-! SUPPORT. The laws of memory: a read after a write, that a write leaves every other byte alone, that
every memory operation keeps the canonical form, and what a program load leaves. -/

namespace Sys2Proof.Machine

variable {g : Vector Byte 80} {m : Memory} {a b : Nat} {v : Byte}

theorem Memory.read_erase : Memory.read g (Memory.erase m a) b =
    if b = a then Memory.unlisted g b else Memory.read g m b := by
  induction m with
  | nil => simp [Memory.erase, Memory.read]
  | cons c m ih =>
    obtain ⟨d, u⟩ := c
    by_cases hd : d = a
    · subst hd
      simp only [Memory.erase, List.filter_cons, ne_eq, not_true_eq_false, decide_false] at ih ⊢
      simp only [Bool.false_eq_true, if_false, ih, Memory.read]
      split <;> simp_all
    · simp only [Memory.erase, List.filter_cons, ne_eq, hd, not_false_eq_true, decide_true] at ih ⊢
      simp only [if_true, Memory.read, ih]
      split <;> simp_all

theorem Memory.read_insert : Memory.read g (Memory.insert m a v) b =
    if b = a then v else Memory.read g m b := by
  induction m with
  | nil => simp [Memory.insert, Memory.read]
  | cons c m ih =>
    obtain ⟨d, u⟩ := c
    simp only [Memory.insert]
    split
    · simp [Memory.read]
    · split
      · subst_vars; simp only [Memory.read]; split <;> simp_all
      next hne =>
        simp only [Memory.read, ih]
        by_cases hb : b = a
        · subst hb; simp [hne]
        · simp [hb]

/-- A read after a write: the byte written at its address, every other byte as before (R62, R63). It
holds in any memory, canonical or not. -/
theorem Memory.read_write : Memory.read g (Memory.write g m a v) b =
    if b = a then v else Memory.read g m b := by
  rw [Memory.write]
  split
  · rw [Memory.read_erase]; split <;> simp_all
  · exact Memory.read_insert

@[simp] theorem State.readByte_writeByte (s : State) (a b : Nat) (v : Byte) :
    (s.writeByte a v).readByte b = if b = a then v else s.readByte b := Memory.read_write

theorem Memory.mem_insert {c : Host.Cell} (h : c ∈ Memory.insert m a v) : c = (a, v) ∨ c ∈ m := by
  induction m with
  | nil => simpa [Memory.insert] using h
  | cons d m ih =>
    simp only [Memory.insert] at h
    split at h
    · simpa using h
    · split at h
      · rcases List.mem_cons.1 h with h | h <;> simp [h]
      · rcases List.mem_cons.1 h with h | h
        · simp [h]
        · rcases ih h with h | h <;> simp [h]

theorem Memory.pairwise_insert (h : m.Pairwise (fun c d => c.1 < d.1)) :
    (Memory.insert m a v).Pairwise (fun c d => c.1 < d.1) := by
  induction m with
  | nil => simp [Memory.insert]
  | cons d m ih =>
    obtain ⟨hd, hm⟩ := List.pairwise_cons.1 h
    simp only [Memory.insert]
    split
    next hlt =>
      refine List.pairwise_cons.2 ⟨fun c hc => ?_, h⟩
      rcases List.mem_cons.1 hc with hc | hc
      · simpa [hc] using hlt
      · exact Nat.lt_trans hlt (hd c hc)
    next hge =>
      split
      next heq => exact List.pairwise_cons.2 ⟨fun c hc => by simpa [heq] using hd c hc, hm⟩
      next hne =>
        refine List.pairwise_cons.2 ⟨fun c hc => ?_, ih hm⟩
        rcases Memory.mem_insert hc with hc | hc
        · simp only [hc]; omega
        · exact hd c hc

/-- A write inside memory keeps the canonical form. -/
theorem Memory.wf_write (h : Memory.Wf g m) (ha : a < memSize) : Memory.Wf g (Memory.write g m a v) := by
  rw [Memory.write]
  split
  · exact ⟨h.1.filter _, fun c hc => h.2 c (List.mem_filter.1 hc).1⟩
  next hne =>
    refine ⟨Memory.pairwise_insert h.1, fun c hc => ?_⟩
    rcases Memory.mem_insert hc with hc | hc
    · simpa [hc] using ⟨ha, hne⟩
    · exact h.2 c hc

theorem State.wf_writeByte (s : State) (h : Memory.Wf s.cfg.glyphs s.mem) (ha : a < memSize) :
    Memory.Wf (s.writeByte a v).cfg.glyphs (s.writeByte a v).mem := Memory.wf_write h ha

/-! ### A program load -/

theorem Memory.mem_imageCells {image : List Byte} {c : Host.Cell} :
    ∀ {a}, c ∈ Memory.imageCells a image → a ≤ c.1 ∧ c.1 < a + image.length ∧ c.2 ≠ 0 := by
  induction image with
  | nil => intro a h; simp [Memory.imageCells] at h
  | cons b bs ih =>
    intro a h
    simp only [Memory.imageCells] at h
    simp only [List.length_cons]
    split at h
    · obtain ⟨h1, h2, h3⟩ := ih h
      exact ⟨by omega, by omega, h3⟩
    next hb =>
      rcases List.mem_cons.1 h with h | h
      · subst h; exact ⟨Nat.le_refl _, by simp, hb⟩
      · obtain ⟨h1, h2, h3⟩ := ih h
        exact ⟨by omega, by omega, h3⟩

theorem Memory.pairwise_imageCells {image : List Byte} :
    ∀ {a}, (Memory.imageCells a image).Pairwise (fun c d => c.1 < d.1) := by
  induction image with
  | nil => intro a; simp [Memory.imageCells]
  | cons b bs ih =>
    intro a
    simp only [Memory.imageCells]
    split
    · exact ih
    · exact List.pairwise_cons.2 ⟨fun c hc => by have := Memory.mem_imageCells hc; simp; omega, ih⟩

theorem Memory.unlisted_of_le (h : 80 ≤ a) : Memory.unlisted g a = 0 := by
  simp [Memory.unlisted, Nat.not_lt.2 h]

/-- A program load of an image that fits keeps the canonical form (R342). -/
theorem Memory.wf_load {image : List Byte} (h : Memory.Wf g m) (hl : image.length ≤ maxProgram) :
    Memory.Wf g (Memory.load m image) := by
  simp only [maxProgram] at hl
  refine ⟨List.pairwise_append.2 ⟨h.1.filter _, Memory.pairwise_imageCells, ?_⟩, fun c hc => ?_⟩
  · intro c hc d hd
    have h1 := (List.mem_filter.1 hc).2
    have h2 := Memory.mem_imageCells hd
    simp only [decide_eq_true_eq, programBase] at h1 h2
    omega
  · rcases List.mem_append.1 hc with hc | hc
    · exact h.2 c (List.mem_filter.1 hc).1
    · have h2 := Memory.mem_imageCells hc
      simp only [programBase] at h2
      exact ⟨by simp only [memSize]; omega, by rw [Memory.unlisted_of_le (by omega)]; exact h2.2.2⟩

theorem Memory.read_imageCells {image : List Byte} :
    ∀ {a}, 80 ≤ a → ∀ b, Memory.read g (Memory.imageCells a image) b =
      if a ≤ b then image[b - a]?.getD (Memory.unlisted g b) else Memory.unlisted g b := by
  induction image with
  | nil => intro a _ b; simp [Memory.imageCells, Memory.read]
  | cons v bs ih =>
    intro a ha b
    have key : Memory.read g (Memory.imageCells a (v :: bs)) b =
        if b = a then v else Memory.read g (Memory.imageCells (a + 1) bs) b := by
      simp only [Memory.imageCells]
      split
      next hv =>
        subst hv
        split
        next hb =>
          subst hb
          rw [ih (by omega), if_neg (by omega), Memory.unlisted_of_le ha]
        · rfl
      · rfl
    rw [key]
    by_cases hb : b = a
    · subst hb; simp
    · rw [if_neg hb, ih (by omega)]
      by_cases hab : a ≤ b
      · have e : b - a = (b - (a + 1)) + 1 := by omega
        rw [if_pos (by omega), if_pos hab, e, List.getElem?_cons_succ]
      · rw [if_neg (by omega), if_neg hab]

theorem Memory.read_clear_append {n : Memory} :
    Memory.read g (Memory.clearProgram m ++ n) b =
      if b < 80 then Memory.read g (m ++ n) b else Memory.read g n b := by
  induction m with
  | nil => simp [Memory.clearProgram]
  | cons c m ih =>
    obtain ⟨d, u⟩ := c
    simp only [Memory.clearProgram] at ih
    by_cases hd : d < 80
    · simp only [Memory.clearProgram, List.filter_cons, hd, decide_true, if_true, List.cons_append,
        Memory.read, ih]
      split <;> split <;> first | rfl | omega
    · simp only [Memory.clearProgram, List.filter_cons, hd, decide_false, Bool.false_eq_true, if_false,
        List.cons_append, Memory.read, ih]
      by_cases hb : b < 80
      · rw [if_pos hb, if_pos hb, if_neg (by omega)]
      · rw [if_neg hb, if_neg hb]

theorem Memory.read_append_of_lt {n : Memory} (h : ∀ c ∈ n, b < c.1) :
    Memory.read g (m ++ n) b = Memory.read g m b := by
  induction m with
  | nil =>
    simp only [List.nil_append, Memory.read]
    induction n with
    | nil => rfl
    | cons c n ih =>
      obtain ⟨d, u⟩ := c
      have hd : b < d := h (d, u) (by simp)
      rw [Memory.read, if_neg (by omega)]
      exact ih fun c hc => h c (by simp [hc])
  | cons c m ih => obtain ⟨d, u⟩ := c; simp [Memory.read, ih]

/-- What memory reads as after a program load (R342): the glyph bytes as they were, the image from
PROGRAM_BASE, zero everywhere else. -/
theorem Memory.read_load {image : List Byte} : Memory.read g (Memory.load m image) b =
    if b < 80 then Memory.read g m b
    else if programBase ≤ b then image[b - programBase]?.getD 0 else 0 := by
  rw [Memory.load, Memory.read_clear_append]
  split
  next hb =>
    refine Memory.read_append_of_lt fun c hc => ?_
    have := Memory.mem_imageCells hc
    simp only [programBase] at this
    omega
  next hb =>
    rw [Memory.read_imageCells (by simp [programBase]), Memory.unlisted_of_le (Nat.not_lt.1 hb)]

end Sys2Proof.Machine
end

