-- ==== Sys2Proof/Laws/State.lean ====
section
/-! SUPPORT. What each field is after each update of the state: one lemma per field per update, true by
definition, so that no proof unfolds a record update; and the registers read after a write. -/

namespace Sys2Proof.Machine

variable (s : State)

/-! ### setV -/

@[simp] theorem State.setV_cfg (x : Hex) (b : Byte) : (s.setV x b).cfg = s.cfg := rfl
@[simp] theorem State.setV_v (x : Hex) (b : Byte) : (s.setV x b).v = s.v.set x b := rfl
@[simp] theorem State.setV_i (x : Hex) (b : Byte) : (s.setV x b).i = s.i := rfl
@[simp] theorem State.setV_pc (x : Hex) (b : Byte) : (s.setV x b).pc = s.pc := rfl
@[simp] theorem State.setV_stack (x : Hex) (b : Byte) : (s.setV x b).stack = s.stack := rfl
@[simp] theorem State.setV_sp (x : Hex) (b : Byte) : (s.setV x b).sp = s.sp := rfl
@[simp] theorem State.setV_dt (x : Hex) (b : Byte) : (s.setV x b).dt = s.dt := rfl
@[simp] theorem State.setV_st (x : Hex) (b : Byte) : (s.setV x b).st = s.st := rfl
@[simp] theorem State.setV_keys (x : Hex) (b : Byte) : (s.setV x b).keys = s.keys := rfl
@[simp] theorem State.setV_fb (x : Hex) (b : Byte) : (s.setV x b).fb = s.fb := rfl
@[simp] theorem State.setV_wait (x : Hex) (b : Byte) : (s.setV x b).wait = s.wait := rfl
@[simp] theorem State.setV_fault (x : Hex) (b : Byte) : (s.setV x b).fault = s.fault := rfl
@[simp] theorem State.setV_mem (x : Hex) (b : Byte) : (s.setV x b).mem = s.mem := rfl
@[simp] theorem State.setV_draws (x : Hex) (b : Byte) : (s.setV x b).draws = s.draws := rfl
@[simp] theorem State.setV_calls (x : Hex) (b : Byte) : (s.setV x b).calls = s.calls := rfl

/-! ### setI -/

@[simp] theorem State.setI_cfg (a : Word) : (s.setI a).cfg = s.cfg := rfl
@[simp] theorem State.setI_v (a : Word) : (s.setI a).v = s.v := rfl
@[simp] theorem State.setI_i (a : Word) : (s.setI a).i = a := rfl
@[simp] theorem State.setI_pc (a : Word) : (s.setI a).pc = s.pc := rfl
@[simp] theorem State.setI_stack (a : Word) : (s.setI a).stack = s.stack := rfl
@[simp] theorem State.setI_sp (a : Word) : (s.setI a).sp = s.sp := rfl
@[simp] theorem State.setI_dt (a : Word) : (s.setI a).dt = s.dt := rfl
@[simp] theorem State.setI_st (a : Word) : (s.setI a).st = s.st := rfl
@[simp] theorem State.setI_keys (a : Word) : (s.setI a).keys = s.keys := rfl
@[simp] theorem State.setI_fb (a : Word) : (s.setI a).fb = s.fb := rfl
@[simp] theorem State.setI_wait (a : Word) : (s.setI a).wait = s.wait := rfl
@[simp] theorem State.setI_fault (a : Word) : (s.setI a).fault = s.fault := rfl
@[simp] theorem State.setI_mem (a : Word) : (s.setI a).mem = s.mem := rfl
@[simp] theorem State.setI_draws (a : Word) : (s.setI a).draws = s.draws := rfl
@[simp] theorem State.setI_calls (a : Word) : (s.setI a).calls = s.calls := rfl

/-! ### setPc -/

@[simp] theorem State.setPc_cfg (a : Word) : (s.setPc a).cfg = s.cfg := rfl
@[simp] theorem State.setPc_v (a : Word) : (s.setPc a).v = s.v := rfl
@[simp] theorem State.setPc_i (a : Word) : (s.setPc a).i = s.i := rfl
@[simp] theorem State.setPc_pc (a : Word) : (s.setPc a).pc = a := rfl
@[simp] theorem State.setPc_stack (a : Word) : (s.setPc a).stack = s.stack := rfl
@[simp] theorem State.setPc_sp (a : Word) : (s.setPc a).sp = s.sp := rfl
@[simp] theorem State.setPc_dt (a : Word) : (s.setPc a).dt = s.dt := rfl
@[simp] theorem State.setPc_st (a : Word) : (s.setPc a).st = s.st := rfl
@[simp] theorem State.setPc_keys (a : Word) : (s.setPc a).keys = s.keys := rfl
@[simp] theorem State.setPc_fb (a : Word) : (s.setPc a).fb = s.fb := rfl
@[simp] theorem State.setPc_wait (a : Word) : (s.setPc a).wait = s.wait := rfl
@[simp] theorem State.setPc_fault (a : Word) : (s.setPc a).fault = s.fault := rfl
@[simp] theorem State.setPc_mem (a : Word) : (s.setPc a).mem = s.mem := rfl
@[simp] theorem State.setPc_draws (a : Word) : (s.setPc a).draws = s.draws := rfl
@[simp] theorem State.setPc_calls (a : Word) : (s.setPc a).calls = s.calls := rfl

/-! ### setWait -/

@[simp] theorem State.setWait_cfg (w : Wait) : (s.setWait w).cfg = s.cfg := rfl
@[simp] theorem State.setWait_v (w : Wait) : (s.setWait w).v = s.v := rfl
@[simp] theorem State.setWait_i (w : Wait) : (s.setWait w).i = s.i := rfl
@[simp] theorem State.setWait_pc (w : Wait) : (s.setWait w).pc = s.pc := rfl
@[simp] theorem State.setWait_stack (w : Wait) : (s.setWait w).stack = s.stack := rfl
@[simp] theorem State.setWait_sp (w : Wait) : (s.setWait w).sp = s.sp := rfl
@[simp] theorem State.setWait_dt (w : Wait) : (s.setWait w).dt = s.dt := rfl
@[simp] theorem State.setWait_st (w : Wait) : (s.setWait w).st = s.st := rfl
@[simp] theorem State.setWait_keys (w : Wait) : (s.setWait w).keys = s.keys := rfl
@[simp] theorem State.setWait_fb (w : Wait) : (s.setWait w).fb = s.fb := rfl
@[simp] theorem State.setWait_wait (w : Wait) : (s.setWait w).wait = w := rfl
@[simp] theorem State.setWait_fault (w : Wait) : (s.setWait w).fault = s.fault := rfl
@[simp] theorem State.setWait_mem (w : Wait) : (s.setWait w).mem = s.mem := rfl
@[simp] theorem State.setWait_draws (w : Wait) : (s.setWait w).draws = s.draws := rfl
@[simp] theorem State.setWait_calls (w : Wait) : (s.setWait w).calls = s.calls := rfl

/-! ### writeByte -/

@[simp] theorem State.writeByte_cfg (a : Nat) (b : Byte) : (s.writeByte a b).cfg = s.cfg := rfl
@[simp] theorem State.writeByte_v (a : Nat) (b : Byte) : (s.writeByte a b).v = s.v := rfl
@[simp] theorem State.writeByte_i (a : Nat) (b : Byte) : (s.writeByte a b).i = s.i := rfl
@[simp] theorem State.writeByte_pc (a : Nat) (b : Byte) : (s.writeByte a b).pc = s.pc := rfl
@[simp] theorem State.writeByte_stack (a : Nat) (b : Byte) : (s.writeByte a b).stack = s.stack := rfl
@[simp] theorem State.writeByte_sp (a : Nat) (b : Byte) : (s.writeByte a b).sp = s.sp := rfl
@[simp] theorem State.writeByte_dt (a : Nat) (b : Byte) : (s.writeByte a b).dt = s.dt := rfl
@[simp] theorem State.writeByte_st (a : Nat) (b : Byte) : (s.writeByte a b).st = s.st := rfl
@[simp] theorem State.writeByte_keys (a : Nat) (b : Byte) : (s.writeByte a b).keys = s.keys := rfl
@[simp] theorem State.writeByte_fb (a : Nat) (b : Byte) : (s.writeByte a b).fb = s.fb := rfl
@[simp] theorem State.writeByte_wait (a : Nat) (b : Byte) : (s.writeByte a b).wait = s.wait := rfl
@[simp] theorem State.writeByte_fault (a : Nat) (b : Byte) : (s.writeByte a b).fault = s.fault := rfl
@[simp] theorem State.writeByte_mem (a : Nat) (b : Byte) : (s.writeByte a b).mem = Memory.write s.cfg.glyphs s.mem a b := rfl
@[simp] theorem State.writeByte_draws (a : Nat) (b : Byte) : (s.writeByte a b).draws = s.draws := rfl
@[simp] theorem State.writeByte_calls (a : Nat) (b : Byte) : (s.writeByte a b).calls = s.calls := rfl

/-! ### takeRandom -/

@[simp] theorem State.takeRandom_cfg : (s.takeRandom).cfg = s.cfg := rfl
@[simp] theorem State.takeRandom_v : (s.takeRandom).v = s.v := rfl
@[simp] theorem State.takeRandom_i : (s.takeRandom).i = s.i := rfl
@[simp] theorem State.takeRandom_pc : (s.takeRandom).pc = s.pc := rfl
@[simp] theorem State.takeRandom_stack : (s.takeRandom).stack = s.stack := rfl
@[simp] theorem State.takeRandom_sp : (s.takeRandom).sp = s.sp := rfl
@[simp] theorem State.takeRandom_dt : (s.takeRandom).dt = s.dt := rfl
@[simp] theorem State.takeRandom_st : (s.takeRandom).st = s.st := rfl
@[simp] theorem State.takeRandom_keys : (s.takeRandom).keys = s.keys := rfl
@[simp] theorem State.takeRandom_fb : (s.takeRandom).fb = s.fb := rfl
@[simp] theorem State.takeRandom_wait : (s.takeRandom).wait = s.wait := rfl
@[simp] theorem State.takeRandom_fault : (s.takeRandom).fault = s.fault := rfl
@[simp] theorem State.takeRandom_mem : (s.takeRandom).mem = s.mem := rfl
@[simp] theorem State.takeRandom_draws : (s.takeRandom).draws = s.draws + 1 := rfl
@[simp] theorem State.takeRandom_calls : (s.takeRandom).calls = s.calls := rfl

/-! ### takeCall -/

@[simp] theorem State.takeCall_cfg : (s.takeCall).cfg = s.cfg := rfl
@[simp] theorem State.takeCall_v : (s.takeCall).v = s.v := rfl
@[simp] theorem State.takeCall_i : (s.takeCall).i = s.i := rfl
@[simp] theorem State.takeCall_pc : (s.takeCall).pc = s.pc := rfl
@[simp] theorem State.takeCall_stack : (s.takeCall).stack = s.stack := rfl
@[simp] theorem State.takeCall_sp : (s.takeCall).sp = s.sp := rfl
@[simp] theorem State.takeCall_dt : (s.takeCall).dt = s.dt := rfl
@[simp] theorem State.takeCall_st : (s.takeCall).st = s.st := rfl
@[simp] theorem State.takeCall_keys : (s.takeCall).keys = s.keys := rfl
@[simp] theorem State.takeCall_fb : (s.takeCall).fb = s.fb := rfl
@[simp] theorem State.takeCall_wait : (s.takeCall).wait = s.wait := rfl
@[simp] theorem State.takeCall_fault : (s.takeCall).fault = s.fault := rfl
@[simp] theorem State.takeCall_mem : (s.takeCall).mem = s.mem := rfl
@[simp] theorem State.takeCall_draws : (s.takeCall).draws = s.draws := rfl
@[simp] theorem State.takeCall_calls : (s.takeCall).calls = s.calls.tail := rfl

/-! ### raise -/

@[simp] theorem State.raise_cfg (kind : FaultKind) (info : FaultInfo) (addr word : Word) : (s.raise kind info addr word).cfg = s.cfg := rfl
@[simp] theorem State.raise_v (kind : FaultKind) (info : FaultInfo) (addr word : Word) : (s.raise kind info addr word).v = s.v := rfl
@[simp] theorem State.raise_i (kind : FaultKind) (info : FaultInfo) (addr word : Word) : (s.raise kind info addr word).i = s.i := rfl
@[simp] theorem State.raise_pc (kind : FaultKind) (info : FaultInfo) (addr word : Word) : (s.raise kind info addr word).pc = s.pc := rfl
@[simp] theorem State.raise_stack (kind : FaultKind) (info : FaultInfo) (addr word : Word) : (s.raise kind info addr word).stack = s.stack := rfl
@[simp] theorem State.raise_sp (kind : FaultKind) (info : FaultInfo) (addr word : Word) : (s.raise kind info addr word).sp = s.sp := rfl
@[simp] theorem State.raise_dt (kind : FaultKind) (info : FaultInfo) (addr word : Word) : (s.raise kind info addr word).dt = s.dt := rfl
@[simp] theorem State.raise_st (kind : FaultKind) (info : FaultInfo) (addr word : Word) : (s.raise kind info addr word).st = s.st := rfl
@[simp] theorem State.raise_keys (kind : FaultKind) (info : FaultInfo) (addr word : Word) : (s.raise kind info addr word).keys = s.keys := rfl
@[simp] theorem State.raise_fb (kind : FaultKind) (info : FaultInfo) (addr word : Word) : (s.raise kind info addr word).fb = s.fb := rfl
@[simp] theorem State.raise_wait (kind : FaultKind) (info : FaultInfo) (addr word : Word) : (s.raise kind info addr word).wait = s.wait := rfl
@[simp] theorem State.raise_fault (kind : FaultKind) (info : FaultInfo) (addr word : Word) : (s.raise kind info addr word).fault = some { kind, info, addr, word } := rfl
@[simp] theorem State.raise_mem (kind : FaultKind) (info : FaultInfo) (addr word : Word) : (s.raise kind info addr word).mem = s.mem := rfl
@[simp] theorem State.raise_draws (kind : FaultKind) (info : FaultInfo) (addr word : Word) : (s.raise kind info addr word).draws = s.draws := rfl
@[simp] theorem State.raise_calls (kind : FaultKind) (info : FaultInfo) (addr word : Word) : (s.raise kind info addr word).calls = s.calls := rfl

/-! ### Registers, skips and decoding state -/

@[simp] theorem State.getV_setV (x k : Hex) (b : Byte) :
    (s.setV x b).getV k = if k = x then b else s.getV k := by
  rw [State.getV, State.getV, State.setV_v, Fin.getElem_fin, Fin.getElem_fin, Vector.getElem_set]
  simp only [Fin.val_inj, eq_comm]

/-- The flag is written last (R21): it is what VF holds, whatever the result register. -/
@[simp] theorem State.getV_setVThenFlag (x k : Hex) (result flag : Byte) :
    (s.setVThenFlag x result flag).getV k = if k = 15 then flag else if k = x then result else s.getV k := by
  simp [State.setVThenFlag, State.setVF]

@[simp] theorem State.getV_setI (k : Hex) (a : Word) : (s.setI a).getV k = s.getV k := rfl
@[simp] theorem State.getV_setPc (k : Hex) (a : Word) : (s.setPc a).getV k = s.getV k := rfl
@[simp] theorem State.getV_setWait (k : Hex) (w : Wait) : (s.setWait w).getV k = s.getV k := rfl
@[simp] theorem State.getV_writeByte (k : Hex) (a : Nat) (b : Byte) : (s.writeByte a b).getV k = s.getV k := rfl
@[simp] theorem State.getV_takeRandom (k : Hex) : (s.takeRandom).getV k = s.getV k := rfl
@[simp] theorem State.getV_takeCall (k : Hex) : (s.takeCall).getV k = s.getV k := rfl
@[simp] theorem State.getV_raise (k : Hex) (kind : FaultKind) (info : FaultInfo) (addr word : Word) : (s.raise kind info addr word).getV k = s.getV k := rfl

@[simp] theorem State.readByte_setV (n : Nat) (x : Hex) (b : Byte) : (s.setV x b).readByte n = s.readByte n := rfl
@[simp] theorem State.readByte_setI (n : Nat) (a : Word) : (s.setI a).readByte n = s.readByte n := rfl
@[simp] theorem State.readByte_setPc (n : Nat) (a : Word) : (s.setPc a).readByte n = s.readByte n := rfl
@[simp] theorem State.readByte_setWait (n : Nat) (w : Wait) : (s.setWait w).readByte n = s.readByte n := rfl
@[simp] theorem State.readByte_takeRandom (n : Nat) : (s.takeRandom).readByte n = s.readByte n := rfl
@[simp] theorem State.readByte_takeCall (n : Nat) : (s.takeCall).readByte n = s.readByte n := rfl
@[simp] theorem State.readByte_raise (n : Nat) (kind : FaultKind) (info : FaultInfo) (addr word : Word) : (s.raise kind info addr word).readByte n = s.readByte n := rfl

/-- A taken skip moves pc by 2, and a skip writes nothing but pc (R150). -/
theorem State.skipIf_eq (c : Bool) : s.skipIf c = s.setPc (if c then s.pc + 2 else s.pc) := by
  cases c <;> rfl

end Sys2Proof.Machine
end

