-- ==== Sys2Proof/Laws/Ops.lean ====
section
/-! SUPPORT. What each shared operation can do, said once: raising a fault, the range check, push and pop,
the flags, the quirk-chosen operands, pixels. -/

namespace Sys2Proof.Machine

variable (s : State)

/-! ### Faults -/

/-- Raising a fault about an instruction is what R311 and R313 say of it. -/
theorem State.raiseAt_raises (kind : FaultKind) (info : FaultInfo) (a : Word) :
    Raises s (s.raiseAt kind info a) kind info a := by
  refine ⟨s.faultWord a, rfl, fun h => ?_⟩
  have h' : a.toNat ≤ 0x0FFE := by omega
  rw [State.faultWord, lastFetch, if_pos h', State.wordAt, toNat_wordOfBytes]

theorem State.raiseExec_raises (kind : FaultKind) (info : FaultInfo) :
    Raises s (s.raiseExec kind info) kind info (s.pc - 2) := s.raiseAt_raises kind info _

@[simp] theorem State.raiseExec_eq (kind : FaultKind) (info : FaultInfo) :
    s.raiseExec kind info = s.raise kind info (s.pc - 2) (s.faultWord (s.pc - 2)) := rfl

theorem State.indexRangeOk_iff {m : Nat} : s.indexRangeOk m = true ↔ m = 0 ∨ s.i.toNat + m ≤ 4096 := by
  rw [State.indexRangeOk, Bool.or_eq_true, beq_iff_eq, decide_eq_true_eq, memSize]
  omega

/-- The range check does one of two things (R220): the access when the range lies in memory, else the
fault. -/
theorem State.withinRange_cases (m : Nat) (act : State → State) :
    (s.indexRangeOk m = true ∧ s.withinRange m act = act s) ∨
    (s.indexRangeOk m = false ∧
      s.withinRange m act = s.raiseExec .memOutOfRange (.value (s.i.toNat + m - 1))) := by
  cases h : s.indexRangeOk m <;> simp [State.withinRange, h]

theorem State.withinRange_ok {m : Nat} {act : State → State} (h : s.indexRangeOk m = true) :
    s.withinRange m act = act s := by simp [State.withinRange, h]

theorem State.withinRange_fault {m : Nat} {act : State → State} (h : s.indexRangeOk m = false) :
    s.withinRange m act = s.raiseExec .memOutOfRange (.value (s.i.toNat + m - 1)) := by
  simp [State.withinRange, h]

/-! ### The call stack -/

/-- CALL's push on a stack with room (R154). -/
theorem State.pushThenJump_room (target : Word) (h : s.sp.val < 16) :
    s.pushThenJump target =
      { s with stack := s.stack.set s.sp.val s.pc, sp := ⟨s.sp.val + 1, by omega⟩, pc := target } := by
  simp [State.pushThenJump, h]

theorem State.pushThenJump_full (target : Word) (h : ¬ s.sp.val < 16) :
    s.pushThenJump target = s.raiseExec .stackOverflow (.value 0) := by
  simp [State.pushThenJump, h]

/-- RET's pop on a stack with an entry (R152). -/
theorem State.popThenJump_entry (h : 0 < s.sp.val) :
    s.popThenJump = { s with sp := ⟨s.sp.val - 1, by omega⟩, pc := s.stack[s.sp.val - 1] } := by
  simp [State.popThenJump, h]

theorem State.popThenJump_empty (h : ¬ 0 < s.sp.val) :
    s.popThenJump = s.raiseExec .stackUnderflow (.value 0) := by
  simp only [State.popThenJump, h, dif_neg, not_false_eq_true]

/-! ### Flags, operands -/

theorem toNat_carryFlag (a b : Byte) :
    (carryFlag a b).toNat = if a.toNat + b.toNat > 255 then 1 else 0 := by
  simp only [carryFlag, flagByte, decide_eq_true_eq]; split <;> rfl

theorem toNat_noBorrowFlag (a b : Byte) :
    (noBorrowFlag a b).toNat = if b.toNat ≤ a.toNat then 1 else 0 := by
  simp only [noBorrowFlag, flagByte, decide_eq_true_eq]; split <;> rfl

theorem toNat_shiftRightFlag (b : Byte) : (shiftRightFlag b).toNat = b.toNat % 2 := by
  rw [shiftRightFlag, BitVec.toNat_and]; exact Nat.and_one_is_mod _

theorem toNat_shiftLeftFlag (b : Byte) : (shiftLeftFlag b).toNat = b.toNat / 128 := by
  rw [shiftLeftFlag, BitVec.toNat_ushiftRight, Nat.shiftRight_eq_div_pow]

/-- OR, AND, XOR's last step (R184), register by register. -/
theorem State.getV_setLogicResult (x k : Hex) (r : Byte) : (s.setLogicResult x r).getV k =
    if s.cfg.quirks.resetVfOnLogic = true ∧ k = 15 then 0 else if k = x then r else s.getV k := by
  rw [State.setLogicResult]
  cases s.cfg.quirks.resetVfOnLogic <;> simp

theorem toNat_zext16 (nnn : BitVec 12) : (zext16 nnn).toNat = nnn.toNat := by
  rw [zext16, BitVec.toNat_setWidth, Nat.mod_eq_of_lt (by have := nnn.isLt; omega)]

theorem toNat_byteToWord (b : Byte) : (byteToWord b).toNat = b.toNat := by
  rw [byteToWord, BitVec.toNat_setWidth, Nat.mod_eq_of_lt (by have := b.isLt; omega)]

theorem toNat_glyphAddress (d : Byte) : (glyphAddress d).toNat = 5 * d.toNat := by
  rw [glyphAddress, BitVec.toNat_ofNat, Nat.mod_eq_of_lt (by have := d.isLt; omega)]

/-! ### Pixels -/

/-- Turning a pixel over changes that pixel and no other (R253). -/
theorem Framebuffer.pixel_flip (fb : Framebuffer) (px qx : Fin 64) (py qy : Fin 32) :
    (fb.flip px py).pixel qx qy = if qx = px ∧ qy = py then !fb.pixel px py else fb.pixel qx qy := by
  simp only [Framebuffer.flip, Framebuffer.pixel, Fin.getElem_fin, Vector.getElem_set]
  by_cases hy : qy = py
  · subst hy
    by_cases hx : qx = px
    · subst hx; simp
    · simp [hx, Fin.val_inj, Ne.symm hx]
  · simp [hy, Fin.val_inj, Ne.symm hy]

@[simp] theorem Framebuffer.pixel_blank (px : Fin 64) (py : Fin 32) :
    Framebuffer.blank.pixel px py = false := by
  simp [Framebuffer.blank, Framebuffer.pixel]

end Sys2Proof.Machine
end

