-- ==== Sys2Proof/Laws/Block.lean ====
section
/-! SUPPORT. What the block transfers and LD B's stores leave (43_index_memory.md R221, R225 to R227),
by induction on the number of iterations. -/

namespace Sys2Proof.Machine

variable (s : State)

theorem State.bumpIndex_eq : s.bumpIndex = s.setI (if s.cfg.quirks.indexIncrement then s.i + 1 else s.i) := by
  rw [State.bumpIndex]; split <;> rfl

/-- Two states that differ at most in their bytes and in `I`. -/
theorem State.storeBlock_others (i0 n : Nat) : ∃ m i, s.storeBlock i0 n = { s with mem := m, i := i } := by
  induction n with
  | zero => exact ⟨s.mem, s.i, rfl⟩
  | succ n ih =>
    obtain ⟨m, i, h⟩ := ih
    simp only [State.storeBlock, h, State.bumpIndex_eq]
    exact ⟨_, _, rfl⟩

/-- The stored bytes (R226): register k at i0 + k for the first n registers, every other byte as before. -/
theorem State.readByte_storeBlock (i0 n a : Nat) : (s.storeBlock i0 n).readByte a =
    if i0 ≤ a ∧ a < i0 + n then s.getV (blockRegister (a - i0)) else s.readByte a := by
  induction n with
  | zero => rw [if_neg (by omega)]; rfl
  | succ n ih =>
    have hv : (s.storeBlock i0 n).getV (blockRegister n) = s.getV (blockRegister n) := by
      obtain ⟨m, i, h⟩ := s.storeBlock_others i0 n
      rw [h]; rfl
    simp only [State.storeBlock, State.bumpIndex_eq, State.readByte_setI, State.readByte_writeByte, ih, hv]
    by_cases ha : a = i0 + n
    · rw [if_pos ha, if_pos (by omega), ha, Nat.add_sub_cancel_left]
    · rw [if_neg ha]
      by_cases hb : i0 ≤ a ∧ a < i0 + n
      · rw [if_pos hb, if_pos (by omega)]
      · rw [if_neg hb, if_neg (by omega)]

/-- `I` after n iterations of a store (R221). -/
theorem State.i_storeBlock (i0 n : Nat) : (s.storeBlock i0 n).i =
    if s.cfg.quirks.indexIncrement then s.i + BitVec.ofNat 16 n else s.i := by
  induction n with
  | zero => simp [State.storeBlock]
  | succ n ih =>
    have hq : (s.storeBlock i0 n).cfg = s.cfg := by
      obtain ⟨m, i, h⟩ := s.storeBlock_others i0 n
      rw [h]
    simp only [State.storeBlock, State.bumpIndex_eq, State.setI_i, State.writeByte_i, State.writeByte_cfg,
      hq, ih]
    split
    · rw [BitVec.add_assoc, BitVec.ofNat_add]; rfl
    · rfl

theorem State.loadBlock_others (i0 n : Nat) : ∃ v i, s.loadBlock i0 n = { s with v := v, i := i } := by
  induction n with
  | zero => exact ⟨s.v, s.i, rfl⟩
  | succ n ih =>
    obtain ⟨v, i, h⟩ := ih
    simp only [State.loadBlock, h, State.bumpIndex_eq]
    exact ⟨_, _, rfl⟩

/-- The loaded registers (R227): the first n from i0 on, every other as before. -/
theorem State.getV_loadBlock (i0 n : Nat) (hn : n ≤ 16) (k : Hex) : (s.loadBlock i0 n).getV k =
    if k.val < n then s.readByte (i0 + k.val) else s.getV k := by
  induction n with
  | zero => rfl
  | succ n ih =>
    have hb : (s.loadBlock i0 n).readByte (i0 + n) = s.readByte (i0 + n) := by
      obtain ⟨v, i, h⟩ := s.loadBlock_others i0 n
      rw [h]; rfl
    simp only [State.loadBlock, State.bumpIndex_eq, State.getV_setI, State.getV_setV, ih (by omega), hb]
    have hk : k = blockRegister n ↔ k.val = n := by
      rw [← Fin.val_inj]; simp [blockRegister, Nat.mod_eq_of_lt (show n < 16 by omega)]
    by_cases h : k.val = n
    · rw [if_pos (hk.2 h), if_pos (by omega), h]
    · rw [if_neg (fun e => h (hk.1 e))]
      by_cases h' : k.val < n
      · rw [if_pos h', if_pos (by omega)]
      · rw [if_neg h', if_neg (by omega)]

/-- `I` after n iterations of a load (R221). -/
theorem State.i_loadBlock (i0 n : Nat) : (s.loadBlock i0 n).i =
    if s.cfg.quirks.indexIncrement then s.i + BitVec.ofNat 16 n else s.i := by
  induction n with
  | zero => simp [State.loadBlock]
  | succ n ih =>
    have hq : (s.loadBlock i0 n).cfg = s.cfg := by
      obtain ⟨v, i, h⟩ := s.loadBlock_others i0 n
      rw [h]
    simp only [State.loadBlock, State.bumpIndex_eq, State.setI_i, State.setV_i, State.setV_cfg, hq, ih]
    split
    · rw [BitVec.add_assoc, BitVec.ofNat_add]; rfl
    · rfl

/-- LD B's three digits (R225): hundreds, tens, units from I on, every other byte as before. -/
theorem State.readByte_storeDigits (b : Byte) (a : Nat) : (s.storeDigits b).readByte a =
    if a = s.i.toNat then bcdHundreds b else if a = s.i.toNat + 1 then bcdTens b
    else if a = s.i.toNat + 2 then bcdUnits b else s.readByte a := by
  simp [State.storeDigits]

/-! ### The canonical form of memory -/

theorem State.wf_storeDigits (b : Byte) (h : Memory.Wf s.cfg.glyphs s.mem) (hr : s.indexRangeOk 3 = true) :
    Memory.Wf s.cfg.glyphs (s.storeDigits b).mem := by
  have hr' := s.indexRangeOk_iff.1 hr
  exact Memory.wf_write (Memory.wf_write (Memory.wf_write h (by simp only [memSize]; omega))
    (by simp only [memSize]; omega)) (by simp only [memSize]; omega)

theorem State.wf_storeBlock (i0 n : Nat) (h : Memory.Wf s.cfg.glyphs s.mem) (hr : i0 + n ≤ 4096) :
    Memory.Wf s.cfg.glyphs (s.storeBlock i0 n).mem := by
  induction n with
  | zero => exact h
  | succ n ih =>
    have hq : (s.storeBlock i0 n).cfg = s.cfg := by
      obtain ⟨m, i, h⟩ := s.storeBlock_others i0 n
      rw [h]
    simp only [State.storeBlock, State.bumpIndex_eq, State.setI_mem, State.writeByte_mem, hq]
    exact Memory.wf_write (ih (by omega)) (by simp only [memSize]; omega)

end Sys2Proof.Machine
end

