-- ==== Sys2Proof/Laws/Display.lean ====
section
/-! SUPPORT. What the draw's scan leaves (44_display.md R253 to R256): the pixels it turns over and the
collision it notes, by induction on columns and rows; and with it what a draw and DRW can do. -/

namespace Sys2Proof.Machine

/-- Sprite bit (r, c) is 1 and edge handling puts it on pixel p. -/
def Hit (edges : SpriteEdges) (bytes : Nat → Byte) (bx cy r c : Nat) (p : Fin 64 × Fin 32) : Prop :=
  spriteBit (bytes r) c = true ∧ place edges (bx + c) (cy + r) = some p

/-- Two sprite positions of one draw never land on the same pixel (R254): a sprite is at most 8 wide and
15 high and the screen is 64 by 32. -/
theorem place_inj {edges : SpriteEdges} {bx cy r c r' c' : Nat} {p : Fin 64 × Fin 32}
    (h : place edges (bx + c) (cy + r) = some p) (h' : place edges (bx + c') (cy + r') = some p)
    (hc : c < 8) (hc' : c' < 8) (hr : r < 16) (hr' : r' < 16) : r = r' ∧ c = c' := by
  cases edges with
  | wrap =>
    simp only [place, Option.some.injEq] at h h'
    have e := h.trans h'.symm
    simp only [Prod.mk.injEq, ← Fin.val_inj, Fin.ofNat] at e
    omega
  | clip =>
    simp only [place] at h h'
    split at h
    · split at h'
      · have e := (Option.some.inj h).trans (Option.some.inj h').symm
        simp only [Prod.mk.injEq, Fin.mk.injEq] at e
        omega
      · exact absurd h' (by simp)
    · exact absurd h (by simp)

/-- The scan's invariant: the positions in `done` have been handled and no others. -/
structure Scan.After (fb : Framebuffer) (hit : Nat → Nat → Fin 64 × Fin 32 → Prop)
    (done : Nat → Nat → Prop) (t : Scan) : Prop where
  turned : ∀ p r c, done r c → hit r c p → t.fb.pixel p.1 p.2 = !fb.pixel p.1 p.2
  kept : ∀ p, (∀ r c, done r c → ¬ hit r c p) → t.fb.pixel p.1 p.2 = fb.pixel p.1 p.2
  collision : t.collision = true ↔ ∃ p r c, done r c ∧ hit r c p ∧ fb.pixel p.1 p.2 = true

variable {fb : Framebuffer} {edges : SpriteEdges} {bytes : Nat → Byte} {bx cy : Nat}

/-- One more column (R253). -/
theorem Scan.after_column {done : Nat → Nat → Prop} {t : Scan} {r c : Nat}
    (h : Scan.After fb (Hit edges bytes bx cy) done t) (hr : r < 16) (hc : c < 8)
    (hd : ∀ r' c', done r' c' → r' < 16 ∧ c' < 8 ∧ (r', c') ≠ (r, c)) :
    Scan.After fb (Hit edges bytes bx cy) (fun r' c' => done r' c' ∨ r' = r ∧ c' = c)
      (t.column edges (bytes r) bx (cy + r) c) := by
  have skip (hno : ∀ p, ¬ Hit edges bytes bx cy r c p) :
      Scan.After fb (Hit edges bytes bx cy) (fun r' c' => done r' c' ∨ r' = r ∧ c' = c) t := by
    refine ⟨?_, fun p hp => h.kept p fun r' c' hd' => hp r' c' (.inl hd'), h.collision.trans ⟨?_, ?_⟩⟩
    · rintro p r' c' (hd' | ⟨rfl, rfl⟩) hh
      · exact h.turned p r' c' hd' hh
      · exact absurd hh (hno p)
    · rintro ⟨p, r', c', hd', hh, hp⟩
      exact ⟨p, r', c', .inl hd', hh, hp⟩
    · rintro ⟨p, r', c', hd' | ⟨rfl, rfl⟩, hh, hp⟩
      · exact ⟨p, r', c', hd', hh, hp⟩
      · exact absurd hh (hno p)
  rw [Scan.column]
  split
  next hb =>
    split
    next q hq =>
      have hit : Hit edges bytes bx cy r c q := ⟨hb, hq⟩
      have fresh : ∀ r' c', done r' c' → ¬ Hit edges bytes bx cy r' c' q := fun r' c' hd' hh => by
        obtain ⟨h1, h2, h3⟩ := hd r' c' hd'
        obtain ⟨rfl, rfl⟩ := place_inj hh.2 hq h2 hc h1 hr
        exact h3 rfl
      have old := h.kept q fresh
      refine ⟨?_, ?_, ?_⟩
      · rintro p r' c' (hd' | ⟨rfl, rfl⟩) hh
        · have hne : ¬ (p.1 = q.1 ∧ p.2 = q.2) := fun e => fresh r' c' hd' (Prod.ext e.1 e.2 ▸ hh)
          rw [Scan.plot, Framebuffer.pixel_flip, if_neg hne]
          exact h.turned p r' c' hd' hh
        · obtain rfl : p = q := Option.some.inj (hh.2.symm.trans hq)
          rw [Scan.plot, Framebuffer.pixel_flip, if_pos ⟨rfl, rfl⟩, old]
      · intro p hp
        have hne : ¬ (p.1 = q.1 ∧ p.2 = q.2) := fun e =>
          hp r c (.inr ⟨rfl, rfl⟩) (Prod.ext e.1 e.2 ▸ hit)
        rw [Scan.plot, Framebuffer.pixel_flip, if_neg hne]
        exact h.kept p fun r' c' hd' => hp r' c' (.inl hd')
      · rw [Scan.plot, Bool.or_eq_true, h.collision, old]
        constructor
        · rintro (⟨p, r', c', hd', hh, hp⟩ | hp)
          · exact ⟨p, r', c', .inl hd', hh, hp⟩
          · exact ⟨q, r, c, .inr ⟨rfl, rfl⟩, hit, hp⟩
        · rintro ⟨p, r', c', hd' | ⟨rfl, rfl⟩, hh, hp⟩
          · exact .inl ⟨p, r', c', hd', hh, hp⟩
          · obtain rfl : p = q := Option.some.inj (hh.2.symm.trans hq)
            exact .inr hp
    next hq => exact skip fun p hh => by rw [hh.2] at hq; exact absurd hq (by simp)
  next hb => exact skip fun p hh => hb hh.1

/-- The first c columns of a row. -/
theorem Scan.after_columns {done : Nat → Nat → Prop} {t : Scan} {r : Nat}
    (h : Scan.After fb (Hit edges bytes bx cy) done t) (hr : r < 16) (n : Nat) (hn : n ≤ 8)
    (hd : ∀ r' c', done r' c' → r' < r ∧ c' < 8) :
    Scan.After fb (Hit edges bytes bx cy) (fun r' c' => done r' c' ∨ r' = r ∧ c' < n)
      (t.columns edges (bytes r) bx (cy + r) n) := by
  induction n with
  | zero => simpa [Scan.columns] using h
  | succ n ih =>
    have step := Scan.after_column (ih (by omega)) hr (show n < 8 by omega) (by
      rintro r' c' (h' | ⟨rfl, h'⟩)
      · have := hd r' c' h'
        exact ⟨by omega, this.2, by simp only [ne_eq, Prod.mk.injEq]; omega⟩
      · exact ⟨hr, by omega, by simp only [ne_eq, Prod.mk.injEq]; omega⟩)
    have e : (fun r' c' => (done r' c' ∨ r' = r ∧ c' < n) ∨ r' = r ∧ c' = n) =
        fun r' c' => done r' c' ∨ r' = r ∧ c' < n + 1 := by
      funext r' c'
      rw [or_assoc, ← and_or_left, Nat.lt_succ_iff_lt_or_eq]
    rw [e] at step
    exact step

/-- The whole scan of n rows (R253): the covered pixels are turned over, no others, and the collision is
noted exactly when a covered pixel was on (R256). -/
theorem State.scanRows_after (s : State) (bx by_ n : Nat) (hn : n < 16) :
    Scan.After s.fb (Hit s.cfg.quirks.spriteEdges (fun r => s.readByte (s.i.toNat + r)) bx by_)
      (fun r c => r < n ∧ c < 8) (s.scanRows bx by_ n) := by
  induction n with
  | zero => exact ⟨by simp, fun p _ => rfl, by simp [State.scanRows]⟩
  | succ n ih =>
    have step := Scan.after_columns (ih (by omega)) (show n < 16 by omega) 8 (Nat.le_refl 8)
      (fun r' c' h => h)
    have e : (fun r' c' => (r' < n ∧ c' < 8) ∨ r' = n ∧ c' < 8) =
        fun r' c' => r' < n + 1 ∧ c' < 8 := by
      funext r' c'
      rw [← or_and_right, ← Nat.lt_succ_iff_lt_or_eq]
    rw [e] at step
    exact step

/-! ### The draw in the terms of Safety.lean -/

theorem spriteBit_iff (b : Byte) (c : Nat) : spriteBit b c = true ↔ b.toNat / 2 ^ (7 - c) % 2 = 1 := by
  rw [spriteBit, BitVec.getLsbD, Nat.testBit_eq_decide_div_mod_eq, decide_eq_true_eq]

/-- Clipping keeps the position itself, if it is on the screen (R254). -/
theorem place_clip_iff {cx cy : Nat} {px : Fin 64} {py : Fin 32} :
    place .clip cx cy = some (px, py) ↔ cx = px.val ∧ cy = py.val := by
  have := px.isLt
  have := py.isLt
  unfold place
  dsimp only
  split
  · rw [Option.some.injEq, Prod.mk.injEq, ← Fin.val_inj, ← Fin.val_inj]
  · rw [iff_false_left (by simp)]
    omega

/-- Wrapping takes the position modulo the screen (R254). -/
theorem place_wrap_iff {cx cy : Nat} {px : Fin 64} {py : Fin 32} :
    place .wrap cx cy = some (px, py) ↔ cx % 64 = px.val ∧ cy % 32 = py.val := by
  simp only [place, Option.some.injEq, Prod.mk.injEq, ← Fin.val_inj, Fin.val_ofNat]

/-- A pixel is covered exactly when some position of the scan hits it. -/
theorem covers_iff (s : State) (x y n : Hex) (px : Fin 64) (py : Fin 32) :
    Covers s x y n px py ↔ ∃ r c, (r < n.val ∧ c < 8) ∧
      Hit s.cfg.quirks.spriteEdges (fun r => s.readByte (s.i.toNat + r)) (s.baseX x) (s.baseY y) r c (px, py) := by
  have placed (r c : Nat) : (match s.cfg.quirks.spriteEdges with
      | .clip => (s.getV x).toNat % 64 + c = px.val ∧ (s.getV y).toNat % 32 + r = py.val
      | .wrap => ((s.getV x).toNat % 64 + c) % 64 = px.val ∧ ((s.getV y).toNat % 32 + r) % 32 = py.val) ↔
      place s.cfg.quirks.spriteEdges (s.baseX x + c) (s.baseY y + r) = some (px, py) := by
    cases s.cfg.quirks.spriteEdges with
    | wrap => exact place_wrap_iff.symm
    | clip => exact place_clip_iff.symm
  simp only [Covers, Hit, spriteBit_iff, and_assoc]
  exact exists_congr fun r => exists_congr fun c =>
    and_congr_right' (and_congr_right' (and_congr_right' (placed r c)))

/-- What a draw leaves (R253 to R256). -/
theorem State.drawn_paint (s : State) (x y n : Hex) : Drawn s (s.paint x y n) x y n := by
  have h := s.scanRows_after (s.baseX x) (s.baseY y) n.val n.isLt
  have collides : (s.scanRows (s.baseX x) (s.baseY y) n.val).collision = true ↔
      ∃ px py, Covers s x y n px py ∧ s.fb.pixel px py = true := by
    rw [h.collision]
    constructor
    · rintro ⟨p, r, c, hd, hh, hp⟩
      exact ⟨p.1, p.2, (covers_iff ..).2 ⟨r, c, hd, hh⟩, hp⟩
    · rintro ⟨px, py, hc, hp⟩
      obtain ⟨r, c, hd, hh⟩ := (covers_iff ..).1 hc
      exact ⟨(px, py), r, c, hd, hh, hp⟩
  have flag : (s.paint x y n).getV 15 =
      collisionFlag (s.scanRows (s.baseX x) (s.baseY y) n.val).collision := by simp [State.paint, State.setVF]
  refine ⟨fun px py => ⟨fun hc => ?_, fun hc => ?_⟩, fun hc => ?_, fun hc => ?_, fun k hk => ?_⟩
  · obtain ⟨r, c, hd, hh⟩ := (covers_iff ..).1 hc
    exact h.turned (px, py) r c hd hh
  · exact h.kept (px, py) fun r c hd hh => hc ((covers_iff ..).2 ⟨r, c, hd, hh⟩)
  · rw [flag, collides.2 hc]
    rfl
  · rw [flag, Bool.eq_false_iff.2 fun e => hc (collides.1 e)]
    rfl
  · rw [State.paint, State.setVF, State.getV_setV, if_neg (by simpa using hk)]
    rfl

/-- A draw writes the framebuffer and VF, nothing else (R253). -/
theorem State.paint_others (s : State) (x y n : Hex) :
    ∃ v fb, s.paint x y n = { s with v := v, fb := fb } := ⟨_, _, rfl⟩

/-- DRW does one of three things (R252, R257): it faults on a pending draw, defers, or draws now. -/
theorem execDraw_cases (x y n : Hex) (s : State) :
    ((∃ a b c, s.wait = .waitingForDisplayRefresh a b c) ∧
      execDraw x y n s = .next (s.raiseExec .drawWhilePending (.value (s.pc - 2).toNat))) ∨
    ((∀ a b c, s.wait ≠ .waitingForDisplayRefresh a b c) ∧ s.cfg.quirks.displayWait = true ∧
      execDraw x y n s = .next (s.setWait (.waitingForDisplayRefresh x y n))) ∨
    ((∀ a b c, s.wait ≠ .waitingForDisplayRefresh a b c) ∧ s.cfg.quirks.displayWait = false ∧
      execDraw x y n s = .next (s.drawSprite x y n)) := by
  unfold execDraw
  cases s.wait <;> cases s.cfg.quirks.displayWait <;> simp

end Sys2Proof.Machine
end

