-- ==== Sys2Proof/Laws/PerInstr.lean ====
section
/-! SUPPORT. The family OpcodeRow: the word of an instruction has the bits that its row of R88 fixes
(`w & mask = match`), one lemma per constructor of Instr. -/

namespace Sys2Proof.Laws.OpcodeRow

/-- The instruction's word matches its row of the opcode table (R88). -/
def Statement (i : Instr) : Prop := encodeWord i &&& opcodeMask i = opcodeMatch i

/-! ### What each mask keeps of a packed word -/

theorem and_mask_addr (a : BitVec 4) (nnn : BitVec 12) : packAddr a nnn &&& 0xF000#16 = packAddr a 0 := by
  have m : ∀ i, i < 16 → (0xF000#16).getLsbD i = decide (12 ≤ i) := by decide
  apply BitVec.eq_of_getLsbD_eq
  intro i hi
  rw [BitVec.getLsbD_and, m i hi]
  simp only [packAddr, BitVec.getLsbD_append]
  split
  · simp [Nat.not_le.2 ‹i < 12›]
  · simp [Nat.not_lt.1 ‹¬ i < 12›]

theorem and_mask_imm (a : BitVec 4) (x : Hex) (kk : Byte) :
    packImm a x kk &&& 0xF000#16 = packAddr a 0 := by
  rw [← packAddr_fields (packImm a x kk), nibbleA_packImm, and_mask_addr]

theorem and_mask_draw (a : BitVec 4) (x y : Hex) (d : BitVec 4) :
    packReg a x y d &&& 0xF000#16 = packAddr a 0 := by
  rw [← packAddr_fields (packReg a x y d), nibbleA_packReg, and_mask_addr]

theorem and_mask_reg (a : BitVec 4) (x y : Hex) (d : BitVec 4) :
    packReg a x y d &&& 0xF00F#16 = packReg a 0 0 d := by
  have m : ∀ i, i < 16 → (0xF00F#16).getLsbD i = decide (12 ≤ i ∨ i < 4) := by decide
  apply BitVec.eq_of_getLsbD_eq
  intro i hi
  rw [BitVec.getLsbD_and, m i hi]
  simp only [packReg, BitVec.getLsbD_append]
  split
  · simp [*]
  · split
    · simp [show ¬ i < 4 by omega, show ¬ 12 ≤ i by omega]
    · split
      · simp [show ¬ i < 4 by omega, show ¬ 12 ≤ i by omega]
      · simp [show 12 ≤ i by omega]

theorem and_mask_byte (a : BitVec 4) (x : Hex) (kk : Byte) :
    packImm a x kk &&& 0xF0FF#16 = packImm a 0 kk := by
  have m : ∀ i, i < 16 → (0xF0FF#16).getLsbD i = decide (12 ≤ i ∨ i < 8) := by decide
  apply BitVec.eq_of_getLsbD_eq
  intro i hi
  rw [BitVec.getLsbD_and, m i hi]
  simp only [packImm, BitVec.getLsbD_append]
  split
  · simp [*]
  · split
    · simp [show ¬ i < 8 by omega, show ¬ 12 ≤ i by omega]
    · simp [show 12 ≤ i by omega]

/-! ### One lemma per row -/

theorem clearScreen : Statement .clearScreen := rfl

theorem ret : Statement .ret := rfl

theorem sysCall (nnn : BitVec 12) : Statement (.sysCall nnn) := and_mask_addr 0x0#4 nnn

theorem jump (nnn : BitVec 12) : Statement (.jump nnn) := and_mask_addr 0x1#4 nnn

theorem call (nnn : BitVec 12) : Statement (.call nnn) := and_mask_addr 0x2#4 nnn

theorem skipEqImm (x : Hex) (kk : Byte) : Statement (.skipEqImm x kk) := and_mask_imm 0x3#4 x kk

theorem skipNeImm (x : Hex) (kk : Byte) : Statement (.skipNeImm x kk) := and_mask_imm 0x4#4 x kk

theorem skipEqReg (x y : Hex) : Statement (.skipEqReg x y) := and_mask_reg 0x5#4 x y 0x0#4

theorem loadImm (x : Hex) (kk : Byte) : Statement (.loadImm x kk) := and_mask_imm 0x6#4 x kk

theorem addImm (x : Hex) (kk : Byte) : Statement (.addImm x kk) := and_mask_imm 0x7#4 x kk

theorem move (x y : Hex) : Statement (.move x y) := and_mask_reg 0x8#4 x y 0x0#4

theorem orReg (x y : Hex) : Statement (.orReg x y) := and_mask_reg 0x8#4 x y 0x1#4

theorem andReg (x y : Hex) : Statement (.andReg x y) := and_mask_reg 0x8#4 x y 0x2#4

theorem xorReg (x y : Hex) : Statement (.xorReg x y) := and_mask_reg 0x8#4 x y 0x3#4

theorem addReg (x y : Hex) : Statement (.addReg x y) := and_mask_reg 0x8#4 x y 0x4#4

theorem sub (x y : Hex) : Statement (.sub x y) := and_mask_reg 0x8#4 x y 0x5#4

theorem shiftRight (x y : Hex) : Statement (.shiftRight x y) := and_mask_reg 0x8#4 x y 0x6#4

theorem subReverse (x y : Hex) : Statement (.subReverse x y) := and_mask_reg 0x8#4 x y 0x7#4

theorem shiftLeft (x y : Hex) : Statement (.shiftLeft x y) := and_mask_reg 0x8#4 x y 0xE#4

theorem skipNeReg (x y : Hex) : Statement (.skipNeReg x y) := and_mask_reg 0x9#4 x y 0x0#4

theorem loadIndex (nnn : BitVec 12) : Statement (.loadIndex nnn) := and_mask_addr 0xA#4 nnn

theorem jumpOffset (nnn : BitVec 12) : Statement (.jumpOffset nnn) := and_mask_addr 0xB#4 nnn

theorem random (x : Hex) (kk : Byte) : Statement (.random x kk) := and_mask_imm 0xC#4 x kk

theorem draw (x y n : Hex) : Statement (.draw x y n) := and_mask_draw 0xD#4 x y (BitVec.ofFin (w := 4) n)

theorem skipKeyPressed (x : Hex) : Statement (.skipKeyPressed x) := and_mask_byte 0xE#4 x 0x9E#8

theorem skipKeyNotPressed (x : Hex) : Statement (.skipKeyNotPressed x) := and_mask_byte 0xE#4 x 0xA1#8

theorem loadDelay (x : Hex) : Statement (.loadDelay x) := and_mask_byte 0xF#4 x 0x07#8

theorem waitKey (x : Hex) : Statement (.waitKey x) := and_mask_byte 0xF#4 x 0x0A#8

theorem setDelay (x : Hex) : Statement (.setDelay x) := and_mask_byte 0xF#4 x 0x15#8

theorem setSound (x : Hex) : Statement (.setSound x) := and_mask_byte 0xF#4 x 0x18#8

theorem addIndex (x : Hex) : Statement (.addIndex x) := and_mask_byte 0xF#4 x 0x1E#8

theorem loadGlyph (x : Hex) : Statement (.loadGlyph x) := and_mask_byte 0xF#4 x 0x29#8

theorem storeBcd (x : Hex) : Statement (.storeBcd x) := and_mask_byte 0xF#4 x 0x33#8

theorem storeRegisters (x : Hex) : Statement (.storeRegisters x) := and_mask_byte 0xF#4 x 0x55#8

theorem loadRegisters (x : Hex) : Statement (.loadRegisters x) := and_mask_byte 0xF#4 x 0x65#8

end Sys2Proof.Laws.OpcodeRow
end

