-- ==== Sys2Proof/Laws/Step.lean ====
section
/-! SUPPORT. What a cycle and a host call can do, said once: the cases of the cycle and of a step, the
calls on a halted and on a working core, and the pieces they are made of. -/

namespace Sys2Proof.Machine

variable (s : State)

/-- The cycle does one of four things (R121): nothing, a fetch fault, a decode fault, or the execution
of the instruction at pc, with pc advanced. -/
theorem State.cycle_cases :
    (s.condition ≠ .running ∧ s.cycle = .next s) ∨
    (s.condition = .running ∧ 0x0FFF ≤ s.pc.toNat ∧
      s.cycle = .next (s.raiseAt .fetchOutOfRange (.value s.pc.toNat) s.pc)) ∨
    (s.condition = .running ∧ s.pc.toNat ≤ 0x0FFE ∧ decodeWord (s.wordAt s.pc.toNat) = .decodeFailure ∧
      s.cycle = .next (s.raiseAt .decodeError (.failingWord (s.wordAt s.pc.toNat) s.pc) s.pc)) ∨
    (s.condition = .running ∧ s.pc.toNat ≤ 0x0FFE ∧
      ∃ i, decodeWord (s.wordAt s.pc.toNat) = .instr i ∧ s.cycle = exec i s.advancePc) := by
  rw [State.cycle]
  cases hc : s.condition with
  | halted => exact .inl ⟨by simp, rfl⟩
  | suspended => exact .inl ⟨by simp, rfl⟩
  | running =>
    refine .inr ?_
    show (_ ∧ _ ∧ s.fetchExecute = _) ∨ (_ ∧ _ ∧ _ ∧ s.fetchExecute = _) ∨
      (_ ∧ _ ∧ ∃ i, _ ∧ s.fetchExecute = _)
    rw [State.fetchExecute, decode_pair, ← State.wordAt]
    by_cases hp : s.pc.toNat > lastFetch
    · exact .inl ⟨rfl, hp, if_pos hp⟩
    · rw [if_neg hp]
      cases hd : decodeWord (s.wordAt s.pc.toNat) with
      | decodeFailure => exact .inr (.inl ⟨rfl, Nat.not_lt.1 hp, rfl, rfl⟩)
      | instr i => exact .inr (.inr ⟨rfl, Nat.not_lt.1 hp, i, rfl, rfl⟩)

theorem State.condition_running_iff : s.condition = .running ↔ s.fault = none ∧ s.wait = .running := by
  rw [State.condition]
  cases s.fault with
  | some r => simp
  | none => cases s.wait <;> simp

theorem State.unlessHalted_halted {r : FaultRecord} (act : State → State) (h : s.fault = some r) :
    s.unlessHalted act = s := by rw [State.unlessHalted, h]

theorem State.unlessHalted_working (act : State → State) (h : s.fault = none) :
    s.unlessHalted act = act s := by rw [State.unlessHalted, h]

/-- One step is the next host call on the state that has taken it. -/
theorem step_eq : step s = s.takeCall.serve s.nextCall := rfl

/-- What a step can do, said once: nothing but taking the call, a fetch or decode fault, the execution of
the instruction at pc, or one of the four other host calls (R137). -/
theorem step_cases {t : State} (h : step s = .next t) :
    t = s.takeCall ∨
    (∃ kind info a, (kind = .fetchOutOfRange ∨ kind = .decodeError) ∧ t = s.takeCall.raiseAt kind info a) ∨
    (s.fault = none ∧ s.wait = .running ∧ s.pc.toNat ≤ 0x0FFE ∧
      ∃ i, decodeWord (s.wordAt s.pc.toNat) = .instr i ∧ exec i s.takeCall.advancePc = .next t) ∨
    t = s.takeCall.frameTick ∨ (∃ k, t = s.takeCall.keyPress k) ∨ (∃ k, t = s.takeCall.keyRelease k) ∨
    ∃ image, t = s.takeCall.loadProgram image := by
  rw [step_eq] at h
  cases hc : s.nextCall <;> rw [hc, State.serve] at h
  case cycle =>
    rcases s.takeCall.cycle_cases with ⟨_, e⟩ | ⟨_, _, e⟩ | ⟨_, _, _, e⟩ | ⟨hr, hp, i, hd, e⟩ <;> rw [e] at h
    · cases h; exact .inl rfl
    · cases h; exact .inr (.inl ⟨_, _, _, .inl rfl, rfl⟩)
    · cases h; exact .inr (.inl ⟨_, _, _, .inr rfl, rfl⟩)
    · obtain ⟨hf, hw⟩ := (State.condition_running_iff _).1 hr
      exact .inr (.inr (.inl ⟨hf, hw, hp, i, hd, h⟩))
  all_goals cases h
  · exact .inr (.inr (.inr (.inl rfl)))
  · exact .inr (.inr (.inr (.inr (.inl ⟨_, rfl⟩))))
  · exact .inr (.inr (.inr (.inr (.inr (.inl ⟨_, rfl⟩)))))
  · exact .inr (.inr (.inr (.inr (.inr (.inr ⟨_, rfl⟩)))))

/-! ### The pieces of the host calls (R131, R135, R136) -/

/-- A key press latches (R135) or has no more effect than on KEYS. -/
theorem State.latchKey_cases (k : Hex) :
    (∃ x l, s.wait = .waitingForKey x l ∧
      s.latchKey k = (s.setV x (hexToByte k)).setWait (.waitingForKey x (some k))) ∨
    ((∀ x l, s.wait ≠ .waitingForKey x l) ∧ s.latchKey k = s) := by
  unfold State.latchKey
  split <;> simp_all

/-- A key release ends the wait of the latched key (R136) or has no more effect than on KEYS. -/
theorem State.endKeyWait_cases (k : Hex) :
    (∃ x, s.wait = .waitingForKey x (some k) ∧ s.endKeyWait k = s.setWait .running) ∨
    ((∀ x, s.wait ≠ .waitingForKey x (some k)) ∧ s.endKeyWait k = s) := by
  unfold State.endKeyWait
  split
  · next x l hw =>
    by_cases h : l = k
    · subst h; exact .inl ⟨x, hw, if_pos rfl⟩
    · exact .inr ⟨fun y e => h (by rw [hw] at e; injection e with _ e; injection e), if_neg h⟩
  all_goals simp_all

/-- A tick's pending draw runs, faults, or is not there (R131). -/
theorem State.finishDraw_cases :
    (∃ x y n, s.wait = .waitingForDisplayRefresh x y n ∧
      ((s.indexRangeOk n.val = true ∧ s.finishDraw = (s.paint x y n).setWait .running) ∨
       (s.indexRangeOk n.val = false ∧
        s.finishDraw = s.raiseExec .memOutOfRange (.value (s.i.toNat + n.val - 1))))) ∨
    ((∀ x y n, s.wait ≠ .waitingForDisplayRefresh x y n) ∧ s.finishDraw = s) := by
  unfold State.finishDraw
  split
  · next x y n hw => exact .inl ⟨x, y, n, hw, s.withinRange_cases _ _⟩
  all_goals simp_all

/-- A timer's tick: down by one, saturating at zero (R286). -/
theorem toNat_tickTimer (b : Byte) : (tickTimer b).toNat = b.toNat - 1 := by
  revert b; decide

theorem toNat_hexToByte (k : Hex) : (hexToByte k).toNat = k.val := by
  revert k; decide

end Sys2Proof.Machine
end

