-- ==== Sys2Proof/Tests/Slice0.lean ====
section
/-! SUPPORT. The session's own tests: ill-formed terms, one hand-written word per instruction, one step per
instruction against the vectors of 95_test_vectors.md (V-.., S..), and for every statement of
Obligations.lean that has hypotheses a state and operands that meet them (witness_..). -/

namespace Sys2Proof.Tests

open Sys2Proof.Machine

/-! ### Well-formedness: the two words that are no SYS (R82) -/

theorem test_sys_0E0_is_ill_formed : (Instr.sysCall 0x0E0#12).wellFormed = false := by decide

theorem test_sys_0EE_is_ill_formed : (Instr.sysCall 0x0EE#12).wellFormed = false := by decide

theorem test_sys_0E1_is_well_formed : (Instr.sysCall 0x0E1#12).wellFormed = true := by decide

/-! ### Decoding: each pattern of R88, its word written out bit by bit -/

theorem test_decode_clearScreen : decodeWord 0b0000_0000_1110_0000#16 = .instr .clearScreen := by decide

theorem test_decode_ret : decodeWord 0b0000_0000_1110_1110#16 = .instr .ret := by decide

/-- V-E2. -/
theorem test_decode_sysCall : decodeWord 0b0000_0000_1110_0001#16 = .instr (.sysCall 0x0E1) := by decide

/-- S6. -/
theorem test_decode_jump : decodeWord 0b0001_1010_1011_1100#16 = .instr (.jump 0xABC) := by decide

/-- V-E5. -/
theorem test_decode_call : decodeWord 0b0010_1010_1011_1100#16 = .instr (.call 0xABC) := by decide

theorem test_decode_skipEqImm : decodeWord 0b0011_0011_0010_1010#16 = .instr (.skipEqImm 3 0x2A) := by decide

theorem test_decode_skipNeImm : decodeWord 0b0100_0011_0010_1011#16 = .instr (.skipNeImm 3 0x2B) := by decide

/-- V-E6. -/
theorem test_decode_skipEqReg : decodeWord 0b0101_0001_0010_0000#16 = .instr (.skipEqReg 1 2) := by decide

/-- V-A30. -/
theorem test_decode_loadImm : decodeWord 0b0110_1010_0100_0010#16 = .instr (.loadImm 10 0x42) := by decide

theorem test_decode_addImm : decodeWord 0b0111_0101_1111_1110#16 = .instr (.addImm 5 0xFE) := by decide

/-- V-E8. -/
theorem test_decode_move : decodeWord 0b1000_1010_1011_0000#16 = .instr (.move 10 11) := by decide

theorem test_decode_orReg : decodeWord 0b1000_1010_1011_0001#16 = .instr (.orReg 10 11) := by decide

theorem test_decode_andReg : decodeWord 0b1000_1010_1011_0010#16 = .instr (.andReg 10 11) := by decide

theorem test_decode_xorReg : decodeWord 0b1000_1010_1011_0011#16 = .instr (.xorReg 10 11) := by decide

theorem test_decode_addReg : decodeWord 0b1000_1010_1011_0100#16 = .instr (.addReg 10 11) := by decide

theorem test_decode_sub : decodeWord 0b1000_1010_1011_0101#16 = .instr (.sub 10 11) := by decide

theorem test_decode_shiftRight : decodeWord 0b1000_1010_1011_0110#16 = .instr (.shiftRight 10 11) := by decide

theorem test_decode_subReverse : decodeWord 0b1000_1010_1011_0111#16 = .instr (.subReverse 10 11) := by decide

/-- V-E10. -/
theorem test_decode_shiftLeft : decodeWord 0b1000_1010_1011_1110#16 = .instr (.shiftLeft 10 11) := by decide

/-- V-E11. -/
theorem test_decode_skipNeReg : decodeWord 0b1001_0001_0010_0000#16 = .instr (.skipNeReg 1 2) := by decide

theorem test_decode_loadIndex : decodeWord 0b1010_0011_0000_0001#16 = .instr (.loadIndex 0x301) := by decide

/-- V-E12. -/
theorem test_decode_jumpOffset : decodeWord 0b1011_0001_0010_0011#16 = .instr (.jumpOffset 0x123) := by decide

theorem test_decode_random : decodeWord 0b1100_0111_0000_1111#16 = .instr (.random 7 0x0F) := by decide

theorem test_decode_draw : decodeWord 0b1101_0001_0010_1111#16 = .instr (.draw 1 2 15) := by decide

theorem test_decode_skipKeyPressed : decodeWord 0b1110_0010_1001_1110#16 = .instr (.skipKeyPressed 2) := by decide

/-- V-E14. -/
theorem test_decode_skipKeyNotPressed :
    decodeWord 0b1110_1111_1010_0001#16 = .instr (.skipKeyNotPressed 15) := by decide

theorem test_decode_loadDelay : decodeWord 0b1111_0100_0000_0111#16 = .instr (.loadDelay 4) := by decide

theorem test_decode_waitKey : decodeWord 0b1111_0011_0000_1010#16 = .instr (.waitKey 3) := by decide

theorem test_decode_setDelay : decodeWord 0b1111_0100_0001_0101#16 = .instr (.setDelay 4) := by decide

theorem test_decode_setSound : decodeWord 0b1111_0001_0001_1000#16 = .instr (.setSound 1) := by decide

theorem test_decode_addIndex : decodeWord 0b1111_0101_0001_1110#16 = .instr (.addIndex 5) := by decide

theorem test_decode_loadGlyph : decodeWord 0b1111_1010_0010_1001#16 = .instr (.loadGlyph 10) := by decide

theorem test_decode_storeBcd : decodeWord 0b1111_1011_0011_0011#16 = .instr (.storeBcd 11) := by decide

theorem test_decode_storeRegisters : decodeWord 0b1111_0010_0101_0101#16 = .instr (.storeRegisters 2) := by
  decide

/-- S7. -/
theorem test_decode_loadRegisters : decodeWord 0b1111_0010_0110_0101#16 = .instr (.loadRegisters 2) := by
  decide

/-- V-E7, V-E9, V-E11, V-E14, V-E16: each family's failing words. -/
theorem test_decode_failures :
    decodeWord 0x5121#16 = .decodeFailure ∧ decodeWord 0x8AB8#16 = .decodeFailure ∧
    decodeWord 0x8ABD#16 = .decodeFailure ∧ decodeWord 0x8ABF#16 = .decodeFailure ∧
    decodeWord 0x912F#16 = .decodeFailure ∧ decodeWord 0xE0A0#16 = .decodeFailure ∧
    decodeWord 0xF000#16 = .decodeFailure ∧ decodeWord 0xF030#16 = .decodeFailure ∧
    decodeWord 0xF075#16 = .decodeFailure ∧ decodeWord 0xF085#16 = .decodeFailure ∧
    decodeWord 0xFFFF#16 = .decodeFailure ∧ decodeWord 0xF090#16 = .decodeFailure := by decide

/-! ### One step on a small state -/

/-- A core with nothing loaded but its pc at 0x200. -/
def at200 : State := { State.reset with pc := 0x200 }

/-- One step with the word stored at pc; whether what it leaves has the property. -/
def after (s : State) (w : Word) (p : State → Bool) : Bool :=
  match step (s.placeWord w) with
  | .next t => p t
  | .fault _ => false
  | .refused _ => false

/-- The state with one quirk record, or one parameter, in place of the default. -/
def under (q : Quirks) : State := at200.withQuirks q

/-- The fault recorded is of this kind, with this info, about the instruction at a. -/
def faulted (t : State) (kind : FaultKind) (info : FaultInfo) (a : Word) : Bool :=
  match t.fault with
  | some r => r.kind == kind && r.info == info && r.addr == a
  | none => false

/-- V-C1. -/
theorem test_jump : after at200 0x1ABC (fun t => t.pc == 0xABC) = true := by decide

/-- V-C2, its instruction at 0x204. -/
theorem test_call : after { at200 with pc := 0x204 } 0x2300
    (fun t => t.stack[0] == 0x206 && t.sp.val == 1 && t.pc == 0x300) = true := by decide

/-- V-C3. -/
theorem test_call_full : after { at200 with sp := 16 } 0x2300
    (fun t => faulted t .stackOverflow (.value 0) 0x200 && t.pc == 0x202 && t.sp.val == 16) = true := by decide

/-- V-C4. -/
theorem test_ret : after { at200 with sp := 1, stack := at200.stack.set 0 0x206 } 0x00EE
    (fun t => t.sp.val == 0 && t.pc == 0x206 && t.stack[0] == 0x206) = true := by decide

/-- V-C5. -/
theorem test_ret_empty : after at200 0x00EE
    (fun t => faulted t .stackUnderflow (.value 0) 0x200) = true := by decide

/-- V-C6. -/
theorem test_skipEqImm : (after (at200.setV 3 0x2A) 0x332A (fun t => t.pc == 0x204) &&
    after (at200.setV 3 0x2A) 0x332B (fun t => t.pc == 0x202)) = true := by decide

/-- V-C7. -/
theorem test_skipNeImm : (after (at200.setV 3 0x2A) 0x432A (fun t => t.pc == 0x202) &&
    after (at200.setV 3 0x2A) 0x432B (fun t => t.pc == 0x204)) = true := by decide

/-- V-C8. -/
theorem test_skipEqReg : after ((at200.setV 1 7).setV 2 7) 0x5120 (fun t => t.pc == 0x204) = true := by decide

/-- V-C8. -/
theorem test_skipNeReg : after ((at200.setV 1 7).setV 2 7) 0x9120 (fun t => t.pc == 0x202) = true := by decide

/-- V-C11: the sum is not reduced modulo 4096. -/
theorem test_jumpOffset : after (at200.setV 0 0xFF) 0xBFFF (fun t => t.pc == 0x10FE) = true := by decide

/-- V-C12. -/
theorem test_jumpOffset_vx : after (((under { Quirks.default with jumpRegister := .vx }).setV 3 4).setV 0 0x10)
    0xB300 (fun t => t.pc == 0x304) = true := by decide

/-- V-C13. -/
theorem test_sysCall : after at200 0x0123
    (fun t => faulted t .sysUnsupported (.value 0x123) 0x200) = true := by decide

/-- V-C14. -/
theorem test_sysCall_nop : after { at200 with cfg := { Config.default with sysPolicy := .nop } } 0x0123
    (fun t => t.fault == none && t.pc == 0x202) = true := by decide

/-- V-C15: a fetch at 0x0FFE. -/
theorem test_fetch_at_FFE : after { at200 with pc := 0xFFE } 0x1200 (fun t => t.pc == 0x200) = true := by decide

/-- V-C17: an odd pc. -/
theorem test_fetch_odd : after { at200 with pc := 0x201 } 0x6005
    (fun t => t.getV 0 == 5 && t.pc == 0x203) = true := by decide

/-- V-A30. -/
theorem test_loadImm : after at200 0x6A42 (fun t => t.getV 10 == 0x42) = true := by decide

/-- V-A27. -/
theorem test_addImm : after ((at200.setV 0 0xFF).setV 15 0x55) 0x7001
    (fun t => t.getV 0 == 0 && t.getV 15 == 0x55) = true := by decide

/-- V-A29. -/
theorem test_move : after (at200.setV 1 0x33) 0x8010 (fun t => t.getV 0 == 0x33) = true := by decide

/-- V-A21. -/
theorem test_orReg : after (((at200.setV 0 0x0F).setV 1 0xF0).setV 15 7) 0x8011
    (fun t => t.getV 0 == 0xFF && t.getV 15 == 0) = true := by decide

/-- V-A24. -/
theorem test_orReg_off : after (((under { Quirks.default with resetVfOnLogic := false }).setV 15 0x0F).setV 1 0xF0)
    0x8F11 (fun t => t.getV 15 == 0xFF) = true := by decide

/-- V-A25. -/
theorem test_andReg : after ((((under { Quirks.default with resetVfOnLogic := false }).setV 0 0x3C).setV 1 0x0F).setV
    15 1) 0x8012 (fun t => t.getV 0 == 0x0C && t.getV 15 == 1) = true := by decide

/-- V-A26. -/
theorem test_xorReg : after (at200.setV 0 0xAA) 0x8003 (fun t => t.getV 0 == 0) = true := by decide

/-- V-A3. -/
theorem test_addReg : after ((at200.setV 0 0x80).setV 1 0x80) 0x8014
    (fun t => t.getV 0 == 0 && t.getV 15 == 1) = true := by decide

/-- V-A5: the flag overwrites the sum. -/
theorem test_addReg_VF : after ((at200.setV 15 0x10).setV 1 0xF5) 0x8F14 (fun t => t.getV 15 == 1) = true := by
  decide

/-- S2. -/
theorem test_sub : after ((at200.setV 0 0x02).setV 1 0x0E) 0x8015
    (fun t => t.getV 0 == 0xF4 && t.getV 15 == 0) = true := by decide

/-- V-A7: equal operands, no borrow. -/
theorem test_sub_equal : after ((at200.setV 0 5).setV 1 5) 0x8015
    (fun t => t.getV 0 == 0 && t.getV 15 == 1) = true := by decide

/-- V-A12. -/
theorem test_subReverse : after ((at200.setV 0 2).setV 1 0x0E) 0x8017
    (fun t => t.getV 0 == 0x0C && t.getV 15 == 1) = true := by decide

/-- V-A13. -/
theorem test_shiftRight : after ((at200.setV 0 0xFF).setV 1 5) 0x8016
    (fun t => t.getV 0 == 2 && t.getV 15 == 1 && t.getV 1 == 5) = true := by decide

/-- V-A14. -/
theorem test_shiftRight_first : after (((under { Quirks.default with shiftSource := .first }).setV 0 0xFF).setV 1 5)
    0x8016 (fun t => t.getV 0 == 0x7F && t.getV 15 == 1) = true := by decide

/-- V-A17. -/
theorem test_shiftLeft : after ((at200.setV 0 1).setV 1 0x81) 0x801E
    (fun t => t.getV 0 == 2 && t.getV 15 == 1) = true := by decide

/-- V-A18. -/
theorem test_shiftLeft_first : after (((under { Quirks.default with shiftSource := .first }).setV 0 1).setV 1 0x81)
    0x801E (fun t => t.getV 0 == 2 && t.getV 15 == 0) = true := by decide

/-- V-A32: with the mask 0 the free byte does not show. -/
theorem test_random_mask_zero : ∃ t, step (at200.placeWord 0xC000) = .next t ∧ t.getV 0 = 0 :=
  ⟨_, rfl, BitVec.and_zero⟩

/-- V-M1. -/
theorem test_loadIndex : after at200 0xA300 (fun t => t.i == 0x300) = true := by decide

/-- V-M2. -/
theorem test_addIndex : after ((at200.setI 0xFFF).setV 5 1) 0xF51E
    (fun t => t.i == 0x1000 && t.getV 15 == 0) = true := by decide

/-- V-M4. -/
theorem test_addIndex_fault :
    after (({ at200 with cfg := { Config.default with indexOverflow := .fault } }.setI 0xFFFF).setV 5 1) 0xF51E
      (fun t => faulted t .indexOverflow (.value 0x10000) 0x200 && t.i == 0xFFFF) = true := by decide

/-- V-M6. -/
theorem test_loadGlyph : after (at200.setV 0 0x1A) 0xF029 (fun t => t.i == 0x32) = true := by decide

theorem test_loadGlyph_full : after ({ at200 with cfg := { Config.default with glyphIndexMode := .full } }.setV 0
    0x1A) 0xF029 (fun t => t.i == 0x82) = true := by decide

/-- S11. -/
theorem test_storeBcd : after ((at200.setI 0x783).setV 3 218) 0xF333
    (fun t => t.readByte 0x783 == 2 && t.readByte 0x784 == 1 && t.readByte 0x785 == 8) = true := by decide

/-- V-M10. -/
theorem test_storeBcd_fault : after ((at200.setI 0xFFE).setV 0 9) 0xF033
    (fun t => faulted t .memOutOfRange (.value 0x1000) 0x200 && t.readByte 0xFFE == 0) = true := by decide

/-- V-M11. -/
theorem test_storeRegisters : after ((((at200.setI 0x300).setV 0 1).setV 1 2).setV 2 3) 0xF255
    (fun t => t.readByte 0x300 == 1 && t.readByte 0x301 == 2 && t.readByte 0x302 == 3 && t.i == 0x303) = true := by
  decide

/-- V-M15. -/
theorem test_storeRegisters_fault : after ((at200.setI 0xFF1).setV 0 7) 0xFF55
    (fun t => faulted t .memOutOfRange (.value 0x1000) 0x200 && t.readByte 0xFF1 == 0 && t.i == 0xFF1) = true := by
  decide

/-- V-M17. -/
theorem test_loadRegisters : after ((((((under { Quirks.default with indexIncrement := false }).setI 0x300).writeByte
    0x300 2).writeByte 0x301 1).writeByte 0x302 8).setV 3 0x99) 0xF265
    (fun t => t.getV 0 == 2 && t.getV 1 == 1 && t.getV 2 == 8 && t.getV 3 == 0x99 && t.i == 0x300) = true := by
  decide

/-- V-M19. -/
theorem test_loadRegisters_glyph : after at200 0xF465
    (fun t => t.getV 0 == 0xF0 && t.getV 1 == 0x90 && t.getV 4 == 0xF0 && t.i == 5) = true := by decide

/-- V-D11. -/
theorem test_clearScreen : after { at200 with fb := at200.fb.flip 5 7 } 0x00E0
    (fun t => t.fb.pixel 5 7 == false) = true := by decide

/-- A core whose draws are immediate, wrapping or clipping. -/
def immediate (e : SpriteEdges) : State :=
  under { Quirks.default with displayWait := false, spriteEdges := e }

/-- V-D1: glyph 0 on a blank screen. -/
theorem test_draw : after (immediate .clip) 0xD005
    (fun t => t.fb.pixel 0 0 && t.fb.pixel 3 0 && !t.fb.pixel 4 0 && t.fb.pixel 0 1 && !t.fb.pixel 1 1 &&
      t.fb.pixel 3 1 && t.fb.pixel 3 4 && !t.fb.pixel 0 5 && t.getV 15 == 0) = true := by decide

/-- V-D3: a row of eight pixels at x = 63 wraps. -/
theorem test_draw_wrap : after (((immediate .wrap).setV 0 63).setI 0x300 |>.writeByte 0x300 0xFF) 0xD011
    (fun t => t.fb.pixel 63 0 && t.fb.pixel 0 0 && t.fb.pixel 6 0 && !t.fb.pixel 7 0) = true := by decide

/-- V-K1. -/
theorem test_skipKeyPressed : after ({ at200 with keys := at200.keys.set 5 true }.setV 2 5) 0xE29E
    (fun t => t.pc == 0x204) = true := by decide

/-- V-K2: a value above 15 is no key. -/
theorem test_skipKeyNotPressed : after ({ at200 with keys := Vector.replicate 16 true }.setV 2 0x10) 0xE2A1
    (fun t => t.pc == 0x204) = true := by decide

/-- V-K3's first cycle. -/
theorem test_waitKey : after at200 0xF30A
    (fun t => t.wait == .waitingForKey 3 none && t.pc == 0x202) = true := by decide

/-- V-K6. -/
theorem test_setDelay : after (at200.setV 4 0x3C) 0xF415 (fun t => t.dt == 0x3C) = true := by decide

theorem test_loadDelay : after { at200 with dt := 0x3C } 0xF507 (fun t => t.getV 5 == 0x3C) = true := by decide

/-- V-T2: the tone is on. -/
theorem test_setSound : after (at200.setV 1 1) 0xF118 (fun t => t.st == 1 && t.tone) = true := by decide

/-- V-F1. -/
theorem test_decode_error : after at200 0xF0FF
    (fun t => faulted t .decodeError (.failingWord 0xF0FF 0x200) 0x200 && t.pc == 0x200) = true := by decide

/-! ### The host's calls -/

/-- One step whose host call is c; whether what it leaves has the property. -/
def afterCall (s : State) (c : HostCall) (p : State → Bool) : Bool :=
  match step { s with calls := [c] } with
  | .next t => p t
  | .fault _ => false
  | .refused _ => false

/-- V-K4's second press, and its first release. -/
theorem test_keyPress : afterCall { at200 with wait := .waitingForKey 3 (some 3) } (.keyPress 5)
    (fun t => t.getV 3 == 5 && t.wait == .waitingForKey 3 (some 5)) = true := by decide

theorem test_keyRelease : afterCall { at200 with wait := .waitingForKey 3 (some 5) } (.keyRelease 3)
    (fun t => t.wait == .waitingForKey 3 (some 5)) = true := by decide

/-- V-T4. -/
theorem test_frameTick : afterCall { at200 with wait := .waitingForKey 0 none, dt := 5 } .frameTick
    (fun t => t.dt == 4 && t.st == 0 && t.wait == .waitingForKey 0 none) = true := by decide

/-- V-D10's tick. -/
theorem test_frameTick_draw : afterCall ({ at200 with wait := .waitingForDisplayRefresh 0 0 5 }.setV 15 0x55)
    .frameTick (fun t => t.fb.pixel 3 4 && t.getV 15 == 0 && t.wait == .running) = true := by decide

/-- V-R2, from a halted core (V-F3). -/
theorem test_loadProgram : afterCall (((at200.setV 3 9).writeByte 0x300 0xAA).writeByte 0x10 0 |>.raise .stackOverflow
    (.value 0) 0x200 0x2200) (.loadProgram [0x60, 0x01])
    (fun t => t.getV 3 == 0 && t.readByte 0x300 == 0 && t.readByte 0x200 == 0x60 && t.readByte 0x201 == 1 &&
      t.readByte 0x10 == 0 && t.pc == 0x200 && t.fault == none) = true := by decide

/-! ### Witnesses: for each statement with hypotheses, inputs that meet them, each clause at a boundary -/

theorem witness_DecodeOfEncodeIsTheInstruction :
    (Instr.sysCall 0xFFF).wellFormed = true ∧ (Instr.draw 15 15 15).wellFormed = true := by decide

theorem witness_DecodedWordIsItsOwnEncoding : decodeWord 0xFF65#16 = .instr (.loadRegisters 15) := by decide

/-- A word for each clause, and for each second switch one that it accepts and one that it does not. -/
theorem witness_FamiliesDecodeAsListed :
    (nibbleA 0x00E1#16 = 0x0#4 ∧ 0x00E1#16 ≠ 0x00E0#16 ∧ 0x00E1#16 ≠ 0x00EE#16) ∧
    (nibbleA 0x5FF0#16 = 0x5#4 ∧ nibbleD 0x5FF0#16 = 0x0#4) ∧ nibbleA 0x5FFF#16 = 0x5#4 ∧
    (nibbleA 0x800E#16 = 0x8#4 ∧ nibbleD 0x800E#16 = 0xE#4) ∧ nibbleA 0x800F#16 = 0x8#4 ∧
    (nibbleA 0x9FF0#16 = 0x9#4 ∧ nibbleD 0x9FF0#16 = 0x0#4) ∧ nibbleA 0x9001#16 = 0x9#4 ∧
    (nibbleA 0xEFA1#16 = 0xE#4 ∧ fieldKk 0xEFA1#16 = 0xA1#8) ∧ nibbleA 0xE0A0#16 = 0xE#4 ∧
    (nibbleA 0xFF65#16 = 0xF#4 ∧ fieldKk 0xFF65#16 = 0x65#8) ∧ nibbleA 0xFFFF#16 = 0xF#4 := by decide

/-- A word in each of the five sets. -/
theorem witness_DecodeFailuresAreTheListedWords :
    (nibbleA 0x500F#16 = 0x5#4 ∧ nibbleD 0x500F#16 ≠ 0x0#4) ∧
    (nibbleA 0x8FFF#16 = 0x8#4 ∧ nibbleD 0x8FFF#16 ∈ [0x8#4, 0x9#4, 0xA#4, 0xB#4, 0xC#4, 0xD#4, 0xF#4]) ∧
    (nibbleA 0x9001#16 = 0x9#4 ∧ nibbleD 0x9001#16 ≠ 0x0#4) ∧
    (nibbleA 0xE09F#16 = 0xE#4 ∧ fieldKk 0xE09F#16 ∉ [0x9E#8, 0xA1#8]) ∧
    (nibbleA 0xF066#16 = 0xF#4 ∧
      fieldKk 0xF066#16 ∉ [0x07#8, 0x0A#8, 0x15#8, 0x18#8, 0x1E#8, 0x29#8, 0x33#8, 0x55#8, 0x65#8]) := by
  decide

/-- The highest pc that fetches, with RND under it. -/
def atTop : State := { at200 with pc := 0xFFE }.placeWord 0xC7FF

theorem witness_StepRunsTheDecodedInstruction :
    atTop.nextCall = .cycle ∧ atTop.fault = none ∧ atTop.wait = .running ∧ atTop.pc.toNat ≤ 0x0FFE ∧
    decode [atTop.readByte atTop.pc.toNat, atTop.readByte (atTop.pc.toNat + 1)] = .ok (.random 7 0xFF, []) :=
  ⟨by decide, by decide, by decide, by decide, rfl⟩

theorem witness_FetchBeyondMemoryFaults :
    (({ at200 with pc := 0xFFF } : State).nextCall = .cycle ∧ ({ at200 with pc := 0xFFF } : State).fault = none ∧
      ({ at200 with pc := 0xFFF } : State).wait = .running ∧
      0x0FFF ≤ ({ at200 with pc := 0xFFF } : State).pc.toNat) ∧
    (atTop.nextCall = .cycle ∧ atTop.fault = none ∧ atTop.wait = .running ∧ atTop.pc.toNat ≤ 0x0FFE) := by decide

theorem witness_UndecodableWordFaults :
    ({ at200 with pc := 0 } : State).nextCall = .cycle ∧ ({ at200 with pc := 0 } : State).fault = none ∧
    ({ at200 with pc := 0 } : State).wait = .running ∧
    0xF090 = (({ at200 with pc := 0 } : State).readByte 0).toNat * 256 +
      (({ at200 with pc := 0 } : State).readByte 1).toNat ∧
    decodeWord 0xF090#16 = .decodeFailure := by decide

/-- A core in a key wait, a core with a draw pending, and a halted core. -/
def waiting (latched : Option Hex) : State := { at200 with wait := .waitingForKey 3 latched }

def drawPending (n : Hex) (i : Word) : State :=
  { at200 with wait := .waitingForDisplayRefresh 0 1 n, i := i, dt := 2 }

def halted : State := at200.raise .stackUnderflow (.value 0) 0x200 0x00EE

theorem witness_SuspendedCycleChangesNothing :
    ((waiting none).fault = none ∧ (waiting none).wait ≠ .running ∧ (waiting none).nextCall = .cycle) ∧
    afterCall (waiting (some 5)) (.keyRelease 5) (fun t => t.wait == .running) = true := by decide

theorem witness_HaltedIsTerminalButForALoad :
    halted.fault = some ⟨.stackUnderflow, .value 0, 0x200, 0x00EE⟩ ∧ halted.nextCall = .cycle := by decide

theorem witness_SysFaultsOrDoesNothing :
    (0x0E1#12 ≠ 0x0E0#12 ∧ 0x0E1#12 ≠ 0x0EE#12) ∧ at200.cfg.sysPolicy = .fault ∧
    ({ at200 with cfg := { Config.default with sysPolicy := .nop } } : State).cfg.sysPolicy = .nop := by decide

theorem witness_ReturnPopsTheStack :
    ({ at200 with sp := 16 } : State).sp.val = (15 : Hex).val + 1 ∧
    ({ at200 with sp := 1 } : State).sp.val = (0 : Hex).val + 1 ∧ at200.sp.val = 0 := by decide

theorem witness_CallPushesTheReturnAddress :
    ({ at200 with sp := 15 } : State).sp.val = (15 : Hex).val ∧ at200.sp.val = (0 : Hex).val ∧
    ({ at200 with sp := 16 } : State).sp.val = 16 := by decide

theorem witness_ReturnUndoesCall : ({ at200 with sp := 15 } : State).sp.val < 16 := by decide

theorem witness_JumpWithOffsetAddsTheRegister :
    at200.cfg.quirks.jumpRegister = .v0 ∧
    (under { Quirks.default with jumpRegister := .vx }).cfg.quirks.jumpRegister = .vx ∧
    (15 : Hex).val = (0xFFF#12).toNat / 256 := by decide

theorem witness_ShiftsByOneBit :
    0x81#8 = (match (at200.setV 1 0x81).cfg.quirks.shiftSource with
      | .second => (at200.setV 1 0x81).getV 1
      | .first => (at200.setV 1 0x81).getV 0) := by decide

theorem witness_AddIndexWrapsOrFaults :
    0xFFFF = ((at200.setI 0xFF00).setV 5 0xFF).i.toNat + (((at200.setI 0xFF00).setV 5 0xFF).getV 5).toNat ∧
    0x10000 = ((at200.setI 0xFFFF).setV 5 1).i.toNat + (((at200.setI 0xFFFF).setV 5 1).getV 5).toNat ∧
    ((at200.setI 0xFFFF).setV 5 1).cfg.indexOverflow = .wrap ∧
    ({ at200 with cfg := { Config.default with indexOverflow := .fault } } : State).cfg.indexOverflow = .fault := by
  decide

theorem witness_LoadGlyphPointsAtTheDigit :
    at200.cfg.glyphIndexMode = .lowNibble ∧
    ({ at200 with cfg := { Config.default with glyphIndexMode := .full } } : State).cfg.glyphIndexMode = .full := by
  decide

theorem witness_StoreDecimalDigits :
    (at200.setI 0xFFD).i.toNat + 2 < 4096 ∧ 4096 ≤ (at200.setI 0xFFE).i.toNat + 2 := by decide

theorem witness_StoreRegistersToMemory :
    (at200.setI 0xFF0).i.toNat + (15 : Hex).val < 4096 ∧ 4096 ≤ (at200.setI 0xFF1).i.toNat + (15 : Hex).val := by
  decide

theorem witness_LoadRegistersFromMemory :
    (at200.setI 0xFFF).i.toNat + (0 : Hex).val < 4096 ∧ 4096 ≤ (at200.setI 0x1000).i.toNat + (0 : Hex).val := by
  decide

theorem witness_LoadRegistersUndoesStoreRegisters : (at200.setI 0xFF0).i.toNat + (15 : Hex).val < 4096 := by decide

/-- Deferred and immediate: n = 2 fits at 0xFFE and does not at 0xFFF. -/
theorem witness_DrawDefersOrDraws :
    ((∀ a b c, at200.wait ≠ .waitingForDisplayRefresh a b c) ∧ at200.cfg.quirks.displayWait = true ∧
      at200.fault = none ∧ (at200.setI 0xFFE).i.toNat + (2 : Hex).val - 1 < 4096 ∧
      4096 ≤ (at200.setI 0xFFF).i.toNat + (2 : Hex).val - 1) ∧
    (∀ a b c, (immediate .clip).wait ≠ .waitingForDisplayRefresh a b c) ∧
    (immediate .clip).cfg.quirks.displayWait = false ∧
    ((immediate .clip).setI 0xFFE).i.toNat + (2 : Hex).val - 1 < 4096 ∧
    (2 : Hex) ≠ 0 ∧ 4096 ≤ ((immediate .clip).setI 0xFFF).i.toNat + (2 : Hex).val - 1 :=
  ⟨⟨fun _ _ _ => Wait.noConfusion, by decide⟩, fun _ _ _ => Wait.noConfusion, by decide⟩

/-- Glyph 0 on a blank screen, and on one with the pixel (0, 1) on, which it covers as it does (0, 2), off. -/
def onePixelOn : State := { immediate .wrap with fb := (immediate .wrap).fb.flip 0 1 }

theorem witness_DrawingTwiceRestoresTheScreen :
    ((immediate .wrap).wait = .running ∧ (immediate .wrap).cfg.quirks.displayWait = false ∧ (0 : Hex) ≠ 15 ∧
      (1 : Hex) ≠ 15 ∧ (immediate .wrap).i.toNat + (5 : Hex).val - 1 < 4096 ∧
      (∀ px py, (immediate .wrap).fb.pixel px py = false) ∧
      ∃ t, exec (.draw 0 1 5) (immediate .wrap) = .next t) ∧
    (onePixelOn.wait = .running ∧ onePixelOn.cfg.quirks.displayWait = false ∧
      onePixelOn.i.toNat + (5 : Hex).val - 1 < 4096 ∧ onePixelOn.fb.pixel 0 1 = true ∧
      (Covers onePixelOn 0 1 5 0 2 ∧ onePixelOn.fb.pixel 0 2 = false) ∧
      ∃ t, exec (.draw 0 1 5) onePixelOn = .next t) :=
  ⟨⟨by decide, by decide, by decide, by decide, by decide,
    fun _ _ => by simp [immediate, under, State.withQuirks, at200, State.reset, State.construct,
      Framebuffer.pixel], _, rfl⟩,
   by decide, by decide, by decide, by decide, ⟨⟨2, 0, by decide, by decide, by decide, by decide, by decide⟩, by decide⟩, _, rfl⟩

/-- A draw of no row covers no pixel. -/
theorem witness_DrawingTwiceRestoresTheScreen_uncovered :
    ¬ ∃ px py, Covers (immediate .wrap) 0 1 0 px py :=
  fun ⟨_, _, _, _, h, _⟩ => absurd h (Nat.not_lt_zero _)

theorem witness_DrawWhilePendingFaults : (drawPending 5 0).wait = .waitingForDisplayRefresh 0 1 5 := by decide

/-- Key 15 pressed, key 15 not pressed, and the lowest value that is no key. -/
theorem witness_KeySkips :
    ((at200.setV 2 15).getV 2).toNat = (15 : Hex).val ∧ ({ at200 with keys := at200.keys.set 15 true }).keys[15] = true ∧
    at200.keys[15] = false ∧ 15 < ((at200.setV 2 16).getV 2).toNat := by decide

theorem witness_KeyWaitEndsOnReleaseOfTheLatchedKey :
    at200.fault = none ∧ (∃ t, exec (.waitKey 3) at200 = .next t) ∧ (4 : Hex) ≠ 5 :=
  ⟨by decide, ⟨_, rfl⟩, by decide⟩

theorem witness_FrameTickCountsTheTimersDown :
    { waiting none with calls := [.frameTick] }.nextCall = .frameTick ∧ (waiting none).fault = none ∧
    ∀ x y n, (waiting none).wait ≠ .waitingForDisplayRefresh x y n :=
  ⟨by decide, by decide, fun _ _ _ => Wait.noConfusion⟩

theorem witness_TimersReachZeroAndStay :
    (waiting none).fault = none ∧ ∀ x y h, (waiting none).wait ≠ .waitingForDisplayRefresh x y h :=
  ⟨by decide, fun _ _ _ => Wait.noConfusion⟩

theorem witness_FrameTickRunsThePendingDraw :
    { drawPending 2 0xFFE with calls := [.frameTick] }.nextCall = .frameTick ∧ (drawPending 2 0xFFE).fault = none ∧
    (drawPending 2 0xFFE).wait = .waitingForDisplayRefresh 0 1 2 ∧
    (drawPending 2 0xFFE).i.toNat + (2 : Hex).val - 1 < 4096 ∧
    (drawPending 2 0xFFF).wait = .waitingForDisplayRefresh 0 1 2 ∧ (2 : Hex) ≠ 0 ∧
    4096 ≤ (drawPending 2 0xFFF).i.toNat + (2 : Hex).val - 1 := by decide

theorem witness_DeferredDrawEqualsImmediateDraw :
    at200.fault = none ∧ at200.wait = .running ∧
    at200.cfg.quirks = { Quirks.default with displayWait := true } ∧
    at200.i.toNat + (5 : Hex).val - 1 < 4096 := by decide

/-- A halted core, a core in a key wait and a running one, each with the call to come. -/
theorem witness_KeyPressLatches :
    ({ halted with calls := [.keyPress 5] }.nextCall = .keyPress 5 ∧
      halted.fault = some ⟨.stackUnderflow, .value 0, 0x200, 0x00EE⟩) ∧
    ((waiting (some 15)).fault = none ∧ (waiting (some 15)).wait = .waitingForKey 3 (some 15)) ∧
    (at200.fault = none ∧ ∀ x l, at200.wait ≠ .waitingForKey x l) :=
  ⟨by decide, by decide, by decide, fun _ _ => Wait.noConfusion⟩

theorem witness_KeyReleaseEndsTheWaitOfTheLatchedKey :
    ({ halted with calls := [.keyRelease 5] }.nextCall = .keyRelease 5 ∧
      halted.fault = some ⟨.stackUnderflow, .value 0, 0x200, 0x00EE⟩) ∧
    ((waiting (some 5)).fault = none ∧ (waiting (some 5)).wait = .waitingForKey 3 (some 5)) ∧
    ((waiting none).fault = none ∧ ∀ x, (waiting none).wait ≠ .waitingForKey x (some 5)) :=
  ⟨by decide, by decide, by decide, fun _ h => by cases h⟩

/-- The longest image that fits, onto a halted core, and the shortest that does not. -/
theorem witness_ProgramLoadResets :
    ({ halted with calls := [.loadProgram (List.replicate 3584 0x12)] }.nextCall =
      .loadProgram (List.replicate 3584 0x12) ∧ (List.replicate 3584 0x12#8).length ≤ 3584) ∧
    ({ at200 with calls := [.loadProgram (List.replicate 3585 0x12)] }.nextCall =
      .loadProgram (List.replicate 3585 0x12) ∧ 3584 < (List.replicate 3585 0x12#8).length) :=
  ⟨⟨rfl, Nat.le_of_eq List.length_replicate⟩, rfl, by rw [List.length_replicate]; decide⟩

theorem witness_PowerOnState : ∃ s, s = State.construct { Config.default with sysPolicy := .nop } := ⟨_, rfl⟩

/-- A key wait with a latched key, over the instruction that began it; and a step of it. -/
def inKeyWait : State :=
  { (at200.placeWord 0xF30A).setV 3 5 with
    pc := 0x202, wait := .waitingForKey 3 (some 5), keys := at200.keys.set 5 true, calls := [.keyRelease 5] }

theorem witness_EveryStepKeepsTheInvariant : inKeyWait.Inv ∧ ∃ t, step inKeyWait = .next t := by
  refine ⟨⟨by decide, by decide, by decide, by decide, ⟨by decide, by decide, by decide, ?_⟩, ?_⟩, _, rfl⟩
  · intro k h; cases h; decide
  · intro r h; cases h

theorem witness_ConfigurationNeverChanges : ∃ t, step inKeyWait = .next t := ⟨_, rfl⟩

theorem witness_ExecutionFaultsArePrecise : at200.fault = none ∧
    ∃ t r, exec .ret at200 = .next t ∧ t.fault = some r := ⟨by decide, _, _, rfl, rfl⟩

/-- Each piece is changed by some instruction. -/
theorem witness_OnlyNamedInstructionsWriteEachPiece :
    (∃ t, exec (.loadImm 3 7) at200 = .next t ∧ t.v ≠ at200.v) ∧
    (∃ t, exec (.jump 0x300) at200 = .next t ∧ t.pc ≠ at200.pc) ∧
    (∃ t, exec .ret at200 = .next t ∧ t.fault ≠ at200.fault) ∧
    (∃ t, exec (.call 0x300) at200 = .next t ∧ t.stack ≠ at200.stack ∧ t.sp ≠ at200.sp) ∧
    (∃ t, exec (.setDelay 0) (at200.setV 0 1) = .next t ∧ t.dt ≠ (at200.setV 0 1).dt) ∧
    (∃ t, exec (.setSound 0) (at200.setV 0 1) = .next t ∧ t.st ≠ (at200.setV 0 1).st) ∧
    (∃ t, exec (.loadIndex 0x300) at200 = .next t ∧ t.i ≠ at200.i) ∧
    (∃ t, exec .clearScreen onePixelOn = .next t ∧ t.fb ≠ onePixelOn.fb) ∧
    (∃ t, exec (.waitKey 0) at200 = .next t ∧ t.wait ≠ at200.wait) ∧
    (∃ t, exec (.storeRegisters 0) ((at200.setI 0x300).setV 0 1) = .next t ∧
      t.mem ≠ ((at200.setI 0x300).setV 0 1).mem) ∧
    (∃ t, exec (.random 0 0) at200 = .next t ∧ t.draws ≠ at200.draws) :=
  ⟨⟨_, rfl, by decide⟩, ⟨_, rfl, by decide⟩, ⟨_, rfl, fun h => by cases h⟩, ⟨_, rfl, by decide, by decide⟩,
    ⟨_, rfl, by decide⟩, ⟨_, rfl, by decide⟩, ⟨_, rfl, by decide⟩,
    ⟨_, rfl, fun h => absurd (congrArg (fun f => Framebuffer.pixel f 0 1) h) (by decide)⟩,
    ⟨_, rfl, by decide⟩, ⟨_, rfl, by decide⟩, ⟨_, rfl, by decide⟩⟩

theorem witness_OnlyFlagInstructionsWriteVF :
    ∃ t, exec (.addReg 0 1) ((at200.setV 0 0x80).setV 1 0x80) = .next t ∧
      t.getV 15 ≠ ((at200.setV 0 0x80).setV 1 0x80).getV 15 := ⟨_, rfl, by decide⟩

theorem witness_QuirksAreReadOnlyWhereNamed :
    QuirksAgree (.draw 0 1 5) at200.cfg.quirks { Quirks.default with shiftSource := .first, jumpRegister := .vx } ∧
    QuirksAgree (.shiftLeft 0 1) at200.cfg.quirks { Quirks.default with displayWait := false } :=
  ⟨⟨rfl, rfl⟩, rfl⟩

/-- LD [I],V1 at 0x200 over the word at 0x202, with LD VA,42 in V0 and V1. -/
def storesOver : State :=
  { ((at200.setI 0x202).setV 0 0x6A).setV 1 0x42 with pc := 0x202 }

theorem witness_StoredCodeIsFetchedNext :
    1 ≤ (1 : Hex).val ∧ storesOver.calls = [] ∧ storesOver.fault = none ∧ storesOver.wait = .running ∧
    storesOver.i.toNat + (1 : Hex).val < 4096 ∧ storesOver.pc.toNat = storesOver.i.toNat ∧
    (∃ t, exec (.storeRegisters 1) storesOver = .next t) ∧
    decode [storesOver.getV 0, storesOver.getV 1] = .ok (.loadImm 10 0x42, []) :=
  ⟨by decide, by decide, by decide, by decide, by decide, by decide, ⟨_, rfl⟩, rfl⟩

/-- A key wait: the release of the latched key, a load, a press, and another release. -/
theorem witness_KeyWaitIsEndedByNothingElse :
    ((waiting (some 15)).wait = .waitingForKey 3 (some 15) ∧ (waiting (some 15)).fault = none) ∧
    (∃ t, step { waiting (some 15) with calls := [.keyRelease 15] } = .next t ∧ t.wait = .running) ∧
    (∃ t, step { waiting (some 15) with calls := [.loadProgram [0x12]] } = .next t ∧ t.wait = .running) ∧
    (∃ t, step { waiting (some 15) with calls := [.keyPress 0] } = .next t) ∧
    (∃ t, step { waiting (some 15) with calls := [.keyRelease 0] } = .next t) :=
  ⟨⟨rfl, rfl⟩, ⟨_, rfl, rfl⟩, ⟨_, rfl, rfl⟩, ⟨_, rfl⟩, _, rfl⟩

end Sys2Proof.Tests
end

section
/-! PROOF. Obligation O3: what each family with a second switch, and family 0, decodes to, word by word
(30_encoding.md R89 to R94). -/

namespace Sys2Proof

/-! ### From the word to its family's switch (R82) -/

/-- In family 0 every word but the two exact ones is a SYS (R89). -/
theorem decodeWord_of_nibbleA_0 {w : Word} (h : nibbleA w = 0x0#4) (hcls : w ≠ 0x00E0#16)
    (hret : w ≠ 0x00EE#16) : decodeWord w = .instr (.sysCall (fieldNnn w)) := by
  simp [decodeWord, hcls, hret, decodeFamily, h]

theorem decodeWord_of_nibbleA_5 {w : Word} (h : nibbleA w = 0x5#4) : decodeWord w =
    if nibbleD w = 0x0#4 then .instr (.skipEqReg (fieldX w) (fieldY w)) else .decodeFailure := by
  simp [decodeWord_of_nibbleA_ne, decodeFamily, h]

theorem decodeWord_of_nibbleA_8 {w : Word} (h : nibbleA w = 0x8#4) : decodeWord w = decodeFamily8 w := by
  simp [decodeWord_of_nibbleA_ne, decodeFamily, h]

theorem decodeWord_of_nibbleA_9 {w : Word} (h : nibbleA w = 0x9#4) : decodeWord w =
    if nibbleD w = 0x0#4 then .instr (.skipNeReg (fieldX w) (fieldY w)) else .decodeFailure := by
  simp [decodeWord_of_nibbleA_ne, decodeFamily, h]

theorem decodeWord_of_nibbleA_E {w : Word} (h : nibbleA w = 0xE#4) : decodeWord w = decodeFamilyE w := by
  simp [decodeWord_of_nibbleA_ne, decodeFamily, h]

theorem decodeWord_of_nibbleA_F {w : Word} (h : nibbleA w = 0xF#4) : decodeWord w = decodeFamilyF w := by
  simp [decodeWord_of_nibbleA_ne, decodeFamily, h]

/-! ### The obligation -/

/-- Settles O3: families 0, 5 and 9 by their row of the first switch; for 8, E and F, one case for each
arm of the second switch, the last arm being the words that no row lists. -/
theorem familiesDecodeAsListed : Obligations.FamiliesDecodeAsListed := by
  intro w
  refine ⟨?cls, ?ret, decodeWord_of_nibbleA_0, decodeWord_of_nibbleA_5, ?family8,
    decodeWord_of_nibbleA_9, ?familyE, ?familyF⟩
  case cls => rintro rfl; exact decodeWord_clearScreen
  case ret => rintro rfl; exact decodeWord_ret
  case family8 =>
    intro h
    rw [decodeWord_of_nibbleA_8 h, decodeFamily8]
    split <;> simp_all
  case familyE =>
    intro h
    rw [decodeWord_of_nibbleA_E h, decodeFamilyE]
    split <;> simp_all
  case familyF =>
    intro h
    rw [decodeWord_of_nibbleA_F h, decodeFamilyF]
    split <;> simp_all

end Sys2Proof
end

section
/-! PROOF. Obligations O12 to O15, O17 and O18: SYS, RET, JP, CALL, the four compare skips and JP V0
(41_control_flow.md R151 to R159). -/

namespace Sys2Proof.Machine

/-! ### The operation each instruction is -/

section execution
variable (s : State) (nnn : BitVec 12) (x y : Hex) (kk : Byte)

theorem exec_sysCall_of_fault (h : s.cfg.sysPolicy = .fault) :
    exec (.sysCall nnn) s = .next (s.raiseExec .sysUnsupported (.value nnn.toNat)) := by
  simp only [exec, execSysCall, h]

theorem exec_sysCall_of_nop (h : s.cfg.sysPolicy = .nop) : exec (.sysCall nnn) s = .next s := by
  simp only [exec, execSysCall, h]

theorem exec_ret_of_entry (h : 0 < s.sp.val) : exec .ret s =
    .next { s with sp := ⟨s.sp.val - 1, by omega⟩, pc := s.stack[s.sp.val - 1] } :=
  congrArg _ (s.popThenJump_entry h)

theorem exec_ret_of_empty (h : s.sp.val = 0) :
    exec .ret s = .next (s.raiseExec .stackUnderflow (.value 0)) :=
  congrArg _ (s.popThenJump_empty (by omega))

theorem exec_jump : exec (.jump nnn) s = .next (s.setPc (zext16 nnn)) := rfl

theorem exec_call_of_room (h : s.sp.val < 16) : exec (.call nnn) s =
    .next { s with
      stack := s.stack.set s.sp.val s.pc, sp := ⟨s.sp.val + 1, by omega⟩, pc := zext16 nnn } :=
  congrArg _ (s.pushThenJump_room _ h)

theorem exec_call_of_full (h : s.sp.val = 16) :
    exec (.call nnn) s = .next (s.raiseExec .stackOverflow (.value 0)) :=
  congrArg _ (s.pushThenJump_full _ (by omega))

theorem exec_skipEqImm : exec (.skipEqImm x kk) s = .next (s.skipIf (decide (s.getV x = kk))) := rfl

theorem exec_skipNeImm : exec (.skipNeImm x kk) s = .next (s.skipIf (decide (s.getV x ≠ kk))) := rfl

theorem exec_skipEqReg : exec (.skipEqReg x y) s = .next (s.skipIf (decide (s.getV x = s.getV y))) := rfl

theorem exec_skipNeReg : exec (.skipNeReg x y) s = .next (s.skipIf (decide (s.getV x ≠ s.getV y))) := rfl

theorem exec_jumpOffset : exec (.jumpOffset nnn) s =
    .next (s.setPc (zext16 nnn + byteToWord (s.getV (s.jumpRegister nnn)))) := rfl

end execution

/-! ### What control transfer leaves unchanged -/

/-- A piece that is the same need not be named among the exceptions. -/
theorem Unchanged.drop {s t : State} {p : Part} {but : List Part} (h : Unchanged s t (p :: but))
    (hp : p.Same s t) : Unchanged s t but := fun q hq => by
  by_cases e : q = p
  · exact e ▸ hp
  · exact h q (by simp [e, hq])

section frames
variable (s : State)

/-- The widest frame of control transfer, CALL's: the slots, SP and pc (R154). -/
theorem unchanged_but_stack_sp_pc (stack : Vector Word 16) (sp : Fin 17) (pc : Word) :
    Unchanged s { s with stack := stack, sp := sp, pc := pc } [.stack, .sp, .pc] := by
  intro p hp
  cases p with
  | stack | sp | pc => simp at hp
  | v | mem => exact fun _ => rfl
  | cfg | i | dt | st | keys | fb | wait | fault | draws | calls => rfl

/-- RET's frame: SP and pc, no slot (R152). -/
theorem unchanged_but_sp_pc (sp : Fin 17) (pc : Word) :
    Unchanged s { s with sp := sp, pc := pc } [.sp, .pc] :=
  (unchanged_but_stack_sp_pc s s.stack sp pc).drop rfl

theorem unchanged_setPc (a : Word) : Unchanged s (s.setPc a) [.pc] :=
  (unchanged_but_sp_pc s s.sp a).drop rfl

end frames

/-! ### The skip, and the target of JP V0 -/

/-- What an instruction that is a skip does to pc (R150). -/
theorem exec_skip {i : Instr} {s : State} {c : Prop} [Decidable c]
    (h : exec i s = .next (s.skipIf (decide c))) :
    ∃ t, exec i s = .next t ∧ t.pc = (if c then s.pc + 2 else s.pc) ∧ Unchanged s t [.pc] := by
  refine ⟨_, h, ?_, ?_⟩ <;> rw [State.skipIf_eq]
  · simp only [State.setPc_pc, decide_eq_true_eq]
  · exact unchanged_setPc s _

/-- `exec_skip` for the two skips on "not equal", with the branches in the order of equality. -/
theorem exec_skip_not {i : Instr} {s : State} {c : Prop} [Decidable c]
    (h : exec i s = .next (s.skipIf (decide ¬c))) :
    ∃ t, exec i s = .next t ∧ t.pc = (if c then s.pc else s.pc + 2) ∧ Unchanged s t [.pc] := by
  simpa only [ite_not] using exec_skip h

theorem State.jumpRegister_of_v0 {s : State} (nnn : BitVec 12) (h : s.cfg.quirks.jumpRegister = .v0) :
    s.jumpRegister nnn = 0 := by simp only [State.jumpRegister, h]

/-- Under `vx` the register is the one that nnn's top nibble names (R159). -/
theorem State.val_jumpRegister_of_vx {s : State} (nnn : BitVec 12)
    (h : s.cfg.quirks.jumpRegister = .vx) : (s.jumpRegister nnn).val = nnn.toNat / 256 := by
  have hlt : nnn.toNat / 256 < 16 := by have := nnn.isLt; omega
  simp only [State.jumpRegister, h, BitVec.val_toFin, BitVec.extractLsb'_toNat, Nat.shiftRight_eq_div_pow]
  exact Nat.mod_eq_of_lt hlt

/-- An address plus a byte fits in 16 bits: at most 0xFFF + 0xFF = 0x10FE (R159). -/
theorem toNat_zext16_add_byteToWord (nnn : BitVec 12) (b : Byte) :
    (zext16 nnn + byteToWord b).toNat = nnn.toNat + b.toNat := by
  have hn := nnn.isLt
  have hb := b.isLt
  rw [BitVec.toNat_add, toNat_zext16, toNat_byteToWord, Nat.mod_eq_of_lt (by omega)]

/-! ### The obligations -/

/-- Settles O12: one equation of SYS for each setting of SYS_POLICY. -/
theorem sysFaultsOrDoesNothing : Obligations.SysFaultsOrDoesNothing := fun nnn s =>
  ⟨decodeWord_sysCall nnn, exec_sysCall_of_nop s nnn,
    fun h => ⟨_, exec_sysCall_of_fault s nnn h, s.raiseExec_raises _ _⟩⟩

/-- Settles O13: the two cases of the pop. -/
theorem returnPopsTheStack : Obligations.ReturnPopsTheStack := by
  intro s
  refine ⟨decodeWord_ret, ?entry, fun h => ⟨_, exec_ret_of_empty s h, s.raiseExec_raises _ _⟩⟩
  case entry =>
    intro k hk
    have hpop : s.sp.val - 1 = k.val := by omega
    refine ⟨_, exec_ret_of_entry s (by omega), hpop, ?slot, unchanged_but_sp_pc s _ _⟩
    case slot => simp only [hpop, Fin.getElem_fin]

/-- Settles O14. -/
theorem jumpSetsPc : Obligations.JumpSetsPc := fun nnn s =>
  ⟨decodeWord_jump nnn, _, exec_jump s nnn, toNat_zext16 nnn, unchanged_setPc s _⟩

/-- Settles O15: the two cases of the push. -/
theorem callPushesTheReturnAddress : Obligations.CallPushesTheReturnAddress := by
  intro nnn s
  refine ⟨decodeWord_call nnn, ?room, fun h => ⟨_, exec_call_of_full s nnn h, s.raiseExec_raises _ _⟩⟩
  case room =>
    intro k hk
    refine ⟨_, exec_call_of_room s nnn (by omega), ?slot, ?others, congrArg (· + 1) hk,
      toNat_zext16 nnn, unchanged_but_stack_sp_pc s _ _ _⟩
    case slot => simp only [hk, Fin.getElem_fin, Vector.getElem_set_self]
    case others =>
      intro j hj
      have hne : s.sp.val ≠ j.val := fun e => hj (Fin.ext (e.symm.trans hk))
      exact Vector.getElem_set_ne (by omega) _ hne

/-- Settles O17: each of the four is a skip on its comparison. -/
theorem compareSkips : Obligations.CompareSkips := fun x y kk s =>
  ⟨decodeWord_skipEqImm x kk, decodeWord_skipNeImm x kk, decodeWord_skipEqReg x y,
    decodeWord_skipNeReg x y, exec_skip (exec_skipEqImm s x kk), exec_skip_not (exec_skipNeImm s x kk),
    exec_skip (exec_skipEqReg s x y), exec_skip_not (exec_skipNeReg s x y)⟩

/-- Settles O18: the register by the quirk, and a sum that does not wrap. -/
theorem jumpWithOffsetAddsTheRegister : Obligations.JumpWithOffsetAddsTheRegister := by
  intro nnn s
  refine ⟨decodeWord_jumpOffset nnn, _, exec_jumpOffset s nnn, unchanged_setPc s _, ?v0, ?vx⟩
  all_goals rw [State.setPc_pc, toNat_zext16_add_byteToWord]
  case v0 =>
    intro h
    rw [State.jumpRegister_of_v0 nnn h]
  case vx =>
    intro h r hr
    rw [Fin.ext ((State.val_jumpRegister_of_vx nnn h).trans hr.symm)]

end Sys2Proof.Machine
end

section
/-! PROOF. Obligations O19 to O23: the loads, the immediate ADD, the logic operations, ADD, SUB, SUBN and
the two shifts (42_register_alu.md R181 to R193). Each instruction is one of three writes, to V[x] alone, to
V[x] and then VF, or the logic result under its quirk; what a write changes is said once for each. -/

namespace Sys2Proof.Machine

/-! ### The write each instruction is -/

section execution
variable (s : State) (x y : Hex) (kk : Byte)

theorem exec_loadImm : exec (.loadImm x kk) s = .next (s.setV x kk) := rfl

theorem exec_addImm : exec (.addImm x kk) s = .next (s.setV x (s.getV x + kk)) := rfl

theorem exec_move : exec (.move x y) s = .next (s.setV x (s.getV y)) := rfl

theorem exec_orReg : exec (.orReg x y) s = .next (s.setLogicResult x (s.getV x ||| s.getV y)) := rfl

theorem exec_andReg : exec (.andReg x y) s = .next (s.setLogicResult x (s.getV x &&& s.getV y)) := rfl

theorem exec_xorReg : exec (.xorReg x y) s = .next (s.setLogicResult x (s.getV x ^^^ s.getV y)) := rfl

theorem exec_addReg : exec (.addReg x y) s =
    .next (s.setVThenFlag x (s.getV x + s.getV y) (carryFlag (s.getV x) (s.getV y))) := rfl

theorem exec_sub : exec (.sub x y) s =
    .next (s.setVThenFlag x (s.getV x - s.getV y) (noBorrowFlag (s.getV x) (s.getV y))) := rfl

theorem exec_subReverse : exec (.subReverse x y) s =
    .next (s.setVThenFlag x (s.getV y - s.getV x) (noBorrowFlag (s.getV y) (s.getV x))) := rfl

theorem exec_shiftRight : exec (.shiftRight x y) s =
    .next (s.setVThenFlag x (s.shiftSource x y >>> 1) (shiftRightFlag (s.shiftSource x y))) := rfl

theorem exec_shiftLeft : exec (.shiftLeft x y) s =
    .next (s.setVThenFlag x (s.shiftSource x y <<< 1) (shiftLeftFlag (s.shiftSource x y))) := rfl

end execution

/-! ### What the register writes leave unchanged -/

section frames
variable (s : State) (x : Hex)

/-- The frame of the register ALU: the registers and no other piece. -/
theorem unchanged_but_v (v : Vector Byte 16) : Unchanged s { s with v := v } [.v] := by
  intro p hp
  cases p with
  | v => simp at hp
  | mem => exact fun _ => rfl
  | cfg | i | pc | stack | sp | dt | st | keys | fb | wait | fault | draws | calls => rfl

theorem unchanged_setV (b : Byte) : Unchanged s (s.setV x b) [.v] := unchanged_but_v s _

theorem unchanged_setVThenFlag (result flag : Byte) :
    Unchanged s (s.setVThenFlag x result flag) [.v] := unchanged_but_v s _

theorem unchanged_setLogicResult (result : Byte) :
    Unchanged s (s.setLogicResult x result) [.v] := by
  rw [State.setLogicResult]
  split
  · exact unchanged_setVThenFlag s x result 0
  · exact unchanged_setV s x result

theorem registersUnchanged_setV (b : Byte) : RegistersUnchanged s (s.setV x b) [x] := by
  intro k hk
  rw [State.getV_setV, if_neg (mt List.mem_singleton.mpr hk)]

theorem State.getV_setV_self (b : Byte) : (s.setV x b).getV x = b := by
  rw [State.getV_setV, if_pos rfl]

end frames

/-! ### What an instruction that is one of these writes does -/

section writes
variable {i : Instr} {s : State} {x : Hex}

/-- OR, AND and XOR (R184). -/
theorem exec_logic {result : Byte} (h : exec i s = .next (s.setLogicResult x result)) :
    ∃ t, exec i s = .next t ∧ Unchanged s t [.v] ∧ ∀ k, t.getV k =
      if s.cfg.quirks.resetVfOnLogic = true ∧ k = 15 then 0 else if k = x then result else s.getV k :=
  ⟨_, h, unchanged_setLogicResult s x result, fun k => s.getV_setLogicResult x k result⟩

/-- ADD, SUB, SUBN and the shifts, given the numbers that the result and the flag are (R21). -/
theorem exec_thenFlag {result flag : Byte} {r f : Nat}
    (h : exec i s = .next (s.setVThenFlag x result flag)) (hr : result.toNat = r) (hf : flag.toNat = f) :
    ∃ t, exec i s = .next t ∧ Unchanged s t [.v] ∧ ∀ k, (t.getV k).toNat =
      if k = 15 then f else if k = x then r else (s.getV k).toNat := by
  refine ⟨_, h, unchanged_setVThenFlag s x result flag, fun k => ?_⟩
  rw [State.getV_setVThenFlag, apply_ite BitVec.toNat, apply_ite BitVec.toNat, hr, hf]

end writes

/-! ### The results as numbers -/

/-- The wrapping difference, as the spec writes it (R189, R191). -/
theorem toNat_byte_sub (a b : Byte) : (a - b).toNat = (a.toNat + 256 - b.toNat) % 256 := by
  have hb := b.isLt
  rw [BitVec.toNat_sub]
  congr 1
  omega

theorem toNat_byte_shiftRight_one (b : Byte) : (b >>> 1).toNat = b.toNat / 2 := by
  rw [BitVec.toNat_ushiftRight, Nat.shiftRight_eq_div_pow]

theorem toNat_byte_shiftLeft_one (b : Byte) : (b <<< 1).toNat = b.toNat * 2 % 256 := by
  rw [BitVec.toNat_shiftLeft, Nat.shiftLeft_eq]

/-! ### The obligations -/

/-- Settles O19: each of the three is a write to V[x] alone. -/
theorem loadsAndImmediateAdd : Obligations.LoadsAndImmediateAdd := by
  intro x y kk s
  refine ⟨decodeWord_loadImm x kk, decodeWord_addImm x kk, decodeWord_move x y,
    ⟨_, exec_loadImm s x kk, ?load, registersUnchanged_setV s x _, unchanged_setV s x _⟩,
    ⟨_, exec_addImm s x kk, ?add, registersUnchanged_setV s x _, unchanged_setV s x _⟩,
    ⟨_, exec_move s x y, ?move, registersUnchanged_setV s x _, unchanged_setV s x _⟩⟩
  all_goals rw [State.getV_setV_self]
  case add => exact BitVec.toNat_add _ _

/-- Settles O20: each of the three is the logic write of its result. -/
theorem logicOperations : Obligations.LogicOperations := fun x y s =>
  ⟨decodeWord_orReg x y, decodeWord_andReg x y, decodeWord_xorReg x y,
    exec_logic (exec_orReg s x y), exec_logic (exec_andReg s x y), exec_logic (exec_xorReg s x y)⟩

/-- Settles O21: the sum, then the carry. -/
theorem addRegistersWithCarry : Obligations.AddRegistersWithCarry := fun x y s =>
  ⟨decodeWord_addReg x y,
    exec_thenFlag (exec_addReg s x y) (BitVec.toNat_add _ _) (toNat_carryFlag _ _)⟩

/-- Settles O22: the difference, then no-borrow; SUBN has the operands the other way round. -/
theorem subtractRegistersNoBorrow : Obligations.SubtractRegistersNoBorrow := fun x y s =>
  ⟨decodeWord_sub x y, decodeWord_subReverse x y,
    exec_thenFlag (exec_sub s x y) (toNat_byte_sub _ _) (toNat_noBorrowFlag _ _),
    exec_thenFlag (exec_subReverse s x y) (toNat_byte_sub _ _) (toNat_noBorrowFlag _ _)⟩

/-- Settles O23: the source is the model's `shiftSource`; then the shifted byte and the bit shifted out. -/
theorem shiftsByOneBit : Obligations.ShiftsByOneBit := by
  intro x y s src hsrc
  obtain rfl : src = s.shiftSource x y := hsrc
  exact ⟨decodeWord_shiftRight x y, decodeWord_shiftLeft x y,
    exec_thenFlag (exec_shiftRight s x y) (toNat_byte_shiftRight_one _) (toNat_shiftRightFlag _),
    exec_thenFlag (exec_shiftLeft s x y) (toNat_byte_shiftLeft_one _) (toNat_shiftLeftFlag _)⟩

end Sys2Proof.Machine
end

section
/-! PROOF. Obligations O25 to O30: LD I, ADD I, LD F, LD B, LD [I],Vx and LD Vx,[I] (43_index_memory.md
R220 to R227). The first three write `I`; the last three are one access behind the range check of R220, so
what the check does is said once, and what each access leaves is the block lemmas'. -/

namespace Sys2Proof.Machine

/-! ### The operation each instruction is -/

section execution
variable (s : State) (nnn : BitVec 12) (x : Hex)

theorem exec_loadIndex : exec (.loadIndex nnn) s = .next (s.setI (zext16 nnn)) := rfl

theorem exec_addIndex_of_le (h : s.i.toNat + (s.getV x).toNat ≤ 0xFFFF) : exec (.addIndex x) s =
    .next (s.setI (BitVec.ofNat 16 (s.i.toNat + (s.getV x).toNat))) := by
  simp only [exec, execAddIndex, if_neg (Nat.not_lt.mpr h)]

theorem exec_addIndex_of_wrap (h : s.i.toNat + (s.getV x).toNat > 0xFFFF)
    (hw : s.cfg.indexOverflow = .wrap) : exec (.addIndex x) s =
    .next (s.setI (BitVec.ofNat 16 ((s.i.toNat + (s.getV x).toNat) % 0x10000))) := by
  simp only [exec, execAddIndex, if_pos h, hw]

theorem exec_addIndex_of_fault (h : s.i.toNat + (s.getV x).toNat > 0xFFFF)
    (hf : s.cfg.indexOverflow = .fault) : exec (.addIndex x) s =
    .next (s.raiseExec .indexOverflow (.value (s.i.toNat + (s.getV x).toNat))) := by
  simp only [exec, execAddIndex, if_pos h, hf]

theorem exec_loadGlyph : exec (.loadGlyph x) s = .next (s.setI (glyphAddress (s.glyphDigit x))) := rfl

theorem exec_storeBcd : exec (.storeBcd x) s =
    .next (s.withinRange (2 + 1) (fun t => t.storeDigits (t.getV x))) := rfl

theorem exec_storeRegisters : exec (.storeRegisters x) s =
    .next (s.withinRange (x.val + 1) (fun t => t.storeBlock t.i.toNat (x.val + 1))) := rfl

theorem exec_loadRegisters : exec (.loadRegisters x) s =
    .next (s.withinRange (x.val + 1) (fun t => t.loadBlock t.i.toNat (x.val + 1))) := rfl

end execution

/-! ### What an access behind the range check does (R220) -/

section range
variable {i : Instr} {s : State} {last : Nat} {act : State → State}

/-- The last byte lies in memory: the access is done. -/
theorem exec_of_inRange (h : exec i s = .next (s.withinRange (last + 1) act))
    (hr : s.i.toNat + last < 4096) : exec i s = .next (act s) := by
  have hok : s.indexRangeOk (last + 1) = true := s.indexRangeOk_iff.mpr (Or.inr hr)
  rw [h, State.withinRange_ok s hok]

/-- The last byte lies beyond memory: the fault about it, and no byte or register written. -/
theorem exec_of_outOfRange (h : exec i s = .next (s.withinRange (last + 1) act))
    (hr : 4096 ≤ s.i.toNat + last) : ∃ t, exec i s = .next t ∧
      Raises s t .memOutOfRange (.value (s.i.toNat + last)) (s.pc - 2) := by
  have hbad : s.indexRangeOk (last + 1) = false :=
    Bool.eq_false_iff.mpr (fun hok => by have := s.indexRangeOk_iff.mp hok; omega)
  exact ⟨_, h.trans (congrArg _ (State.withinRange_fault s hbad)), s.raiseExec_raises _ _⟩

end range

/-! ### What the index writes and the transfers leave unchanged -/

theorem Part.Same.trans {s t u : State} {p : Part} (h : p.Same s t) (h' : p.Same t u) : p.Same s u := by
  cases p with
  | v | mem => exact fun k => (h' k).trans (h k)
  | cfg | i | pc | stack | sp | dt | st | keys | fb | wait | fault | draws | calls => exact Eq.trans h' h

/-- Two writes in a row change at most what one of them changes. -/
theorem Unchanged.trans {s t u : State} {but but' : List Part} (h : Unchanged s t but)
    (h' : Unchanged t u but') : Unchanged s u (but ++ but') := fun p hp =>
  (h p fun e => hp (List.mem_append_left _ e)).trans (h' p fun e => hp (List.mem_append_right _ e))

section frames
variable (s : State)

theorem unchanged_setI (a : Word) : Unchanged s (s.setI a) [.i] := by
  intro p hp
  cases p with
  | i => simp at hp
  | v | mem => exact fun _ => rfl
  | cfg | pc | stack | sp | dt | st | keys | fb | wait | fault | draws | calls => rfl

theorem unchanged_but_mem (m : Memory) : Unchanged s { s with mem := m } [.mem] := by
  intro p hp
  cases p with
  | mem => simp at hp
  | v => exact fun _ => rfl
  | cfg | i | pc | stack | sp | dt | st | keys | fb | wait | fault | draws | calls => rfl

theorem unchanged_storeDigits (b : Byte) : Unchanged s (s.storeDigits b) [.mem] := unchanged_but_mem s _

theorem unchanged_storeBlock (i0 n : Nat) : Unchanged s (s.storeBlock i0 n) [.mem, .i] := by
  obtain ⟨m, i, h⟩ := s.storeBlock_others i0 n
  rw [h]
  exact (unchanged_but_mem s m).trans (unchanged_setI _ i)

theorem unchanged_loadBlock (i0 n : Nat) : Unchanged s (s.loadBlock i0 n) [.v, .i] := by
  obtain ⟨v, i, h⟩ := s.loadBlock_others i0 n
  rw [h]
  exact (unchanged_but_v s v).trans (unchanged_setI _ i)

theorem memoryUnchangedOutside_storeDigits (b : Byte) :
    MemoryUnchangedOutside s (s.storeDigits b) s.i.toNat 3 := by
  intro a ha
  rw [State.readByte_storeDigits, if_neg (by omega), if_neg (by omega), if_neg (by omega)]

theorem memoryUnchangedOutside_storeBlock (i0 n : Nat) :
    MemoryUnchangedOutside s (s.storeBlock i0 n) i0 n := by
  intro a ha
  rw [State.readByte_storeBlock, if_neg (by omega)]

end frames

/-! ### The digits, the block's registers and `I` as numbers -/

theorem toNat_bcdHundreds (b : Byte) : (bcdHundreds b).toNat = b.toNat / 100 := by
  rw [bcdHundreds, BitVec.toNat_ofNat, Nat.mod_eq_of_lt (by have := b.isLt; omega)]

theorem toNat_bcdTens (b : Byte) : (bcdTens b).toNat = b.toNat / 10 % 10 := by
  rw [bcdTens, BitVec.toNat_ofNat, Nat.mod_eq_of_lt (by omega)]

theorem toNat_bcdUnits (b : Byte) : (bcdUnits b).toNat = b.toNat % 10 := by
  rw [bcdUnits, BitVec.toNat_ofNat, Nat.mod_eq_of_lt (by omega)]

@[simp] theorem blockRegister_val (k : Hex) : blockRegister k.val = k := Fin.ofNat_val_eq_self k

/-- Register k of a stored block is the byte at i0 + k (R226). -/
theorem State.readByte_storeBlock_register (s : State) (i0 n : Nat) (k : Hex) (hk : k.val < n) :
    (s.storeBlock i0 n).readByte (i0 + k.val) = s.getV k := by
  rw [State.readByte_storeBlock, if_pos (by omega), Nat.add_sub_cancel_left, blockRegister_val]

/-- `I` after a block of n bytes that does not carry it past 0xFFFF (R221). -/
theorem toNat_index_after_block (i : Word) (q : Bool) (n : Nat) (h : i.toNat + n ≤ 0xFFFF) :
    (if q then i + BitVec.ofNat 16 n else i).toNat = if q = true then i.toNat + n else i.toNat := by
  split
  · rw [BitVec.toNat_add, BitVec.toNat_ofNat, Nat.add_mod_mod, Nat.mod_eq_of_lt (by omega)]
  · rfl

/-- The digit under `low_nibble`: V[x] modulo 16 (R224). -/
theorem State.toNat_glyphDigit_of_lowNibble {s : State} (x : Hex) (h : s.cfg.glyphIndexMode = .lowNibble) :
    (s.glyphDigit x).toNat = (s.getV x).toNat % 16 := by
  simp only [State.glyphDigit, h]
  exact (BitVec.toNat_and ..).trans (Nat.and_two_pow_sub_one_eq_mod _ 4)

theorem State.glyphDigit_of_full {s : State} (x : Hex) (h : s.cfg.glyphIndexMode = .full) :
    s.glyphDigit x = s.getV x := by simp only [State.glyphDigit, h]

/-! ### The obligations -/

/-- Settles O28: the three stores in range, the fault out of range. -/
theorem storeDecimalDigits : Obligations.StoreDecimalDigits := by
  intro x s
  refine ⟨decodeWord_storeBcd x, ?inRange, exec_of_outOfRange (exec_storeBcd s x)⟩
  case inRange =>
    intro hr
    refine ⟨_, exec_of_inRange (exec_storeBcd s x) hr, ?hundreds, ?tens, ?units,
      memoryUnchangedOutside_storeDigits s _, unchanged_storeDigits s _⟩
    all_goals rw [State.readByte_storeDigits]
    case hundreds => rw [if_pos rfl, toNat_bcdHundreds]
    case tens => rw [if_neg (by omega), if_pos rfl, toNat_bcdTens]
    case units => rw [if_neg (by omega), if_neg (by omega), if_pos rfl, toNat_bcdUnits]

/-- Settles O29: the block of x + 1 stores in range, the fault out of range. -/
theorem storeRegistersToMemory : Obligations.StoreRegistersToMemory := by
  intro x s
  refine ⟨decodeWord_storeRegisters x, ?inRange, exec_of_outOfRange (exec_storeRegisters s x)⟩
  case inRange =>
    intro hr
    refine ⟨_, exec_of_inRange (exec_storeRegisters s x) hr, ?bytes,
      memoryUnchangedOutside_storeBlock s _ _, ?index, unchanged_storeBlock s _ _⟩
    case bytes =>
      exact fun k hk => s.readByte_storeBlock_register _ _ k (Nat.lt_succ_of_le hk)
    case index =>
      rw [State.i_storeBlock]
      exact toNat_index_after_block _ _ _ (by omega)

/-- Settles O30: the block of x + 1 loads in range, the fault out of range. -/
theorem loadRegistersFromMemory : Obligations.LoadRegistersFromMemory := by
  intro x s
  refine ⟨decodeWord_loadRegisters x, ?inRange, exec_of_outOfRange (exec_loadRegisters s x)⟩
  case inRange =>
    intro hr
    refine ⟨_, exec_of_inRange (exec_loadRegisters s x) hr, ?registers, ?index,
      unchanged_loadBlock s _ _⟩
    case registers =>
      intro k
      rw [State.getV_loadBlock s _ _ x.isLt]
      simp only [Nat.lt_succ_iff, Fin.le_def]
    case index =>
      rw [State.i_loadBlock]
      exact toNat_index_after_block _ _ _ (by omega)

/-- Settles O25. -/
theorem loadIndexSetsI : Obligations.LoadIndexSetsI := fun nnn s =>
  ⟨decodeWord_loadIndex nnn, _, exec_loadIndex s nnn, toNat_zext16 nnn, unchanged_setI s _⟩

/-- Settles O26: one equation of ADD I for each of the three cases. -/
theorem addIndexWrapsOrFaults : Obligations.AddIndexWrapsOrFaults := by
  rintro x s _ rfl
  refine ⟨decodeWord_addIndex x, ?fits, ?wraps, ?faults⟩
  case fits =>
    intro h
    refine ⟨_, exec_addIndex_of_le s x h, ?_, unchanged_setI s _⟩
    exact (BitVec.toNat_ofNat ..).trans (Nat.mod_eq_of_lt (Nat.lt_succ_of_le h))
  case wraps =>
    intro h hw
    refine ⟨_, exec_addIndex_of_wrap s x h hw, ?_, unchanged_setI s _⟩
    exact (BitVec.toNat_ofNat ..).trans (Nat.mod_mod _ _)
  case faults => exact fun h hf => ⟨_, exec_addIndex_of_fault s x h hf, s.raiseExec_raises _ _⟩

/-- Settles O27: the digit by the mode. -/
theorem loadGlyphPointsAtTheDigit : Obligations.LoadGlyphPointsAtTheDigit := by
  intro x s
  refine ⟨decodeWord_loadGlyph x, _, exec_loadGlyph s x, unchanged_setI s _, ?lowNibble, ?full⟩
  all_goals
    intro h
    rw [State.setI_i, toNat_glyphAddress]
  case lowNibble => rw [State.toNat_glyphDigit_of_lowNibble x h]
  case full => rw [State.glyphDigit_of_full x h]

end Sys2Proof.Machine
end

section
/-! PROOF. Obligations O32 and O33: CLS and DRW (44_display.md R250 to R256). A draw is the range check of
R220 and then `State.paint`, now or at the next tick; what `paint` leaves is Laws/Display's, so here stand only
which of the three things DRW does, what the tick makes of a pending draw, and what each writes. -/

namespace Sys2Proof.Machine

/-! ### The operation each instruction is -/

section execution
variable {s : State} {x y n : Hex}

theorem exec_clearScreen (s : State) : exec .clearScreen s = .next { s with fb := Framebuffer.blank } := rfl

/-- DRW under `display_wait` (R252). -/
theorem exec_draw_of_deferred (hw : ∀ a b c, s.wait ≠ .waitingForDisplayRefresh a b c)
    (hq : s.cfg.quirks.displayWait = true) :
    exec (.draw x y n) s = .next (s.setWait (.waitingForDisplayRefresh x y n)) := by
  obtain ⟨⟨a, b, c, pending⟩, _⟩ | ⟨_, _, he⟩ | ⟨_, hq', _⟩ := execDraw_cases x y n s
  · exact absurd pending (hw a b c)
  · exact he
  · simp [hq] at hq'

/-- DRW without `display_wait` (R252). -/
theorem exec_draw_of_immediate (hw : ∀ a b c, s.wait ≠ .waitingForDisplayRefresh a b c)
    (hq : s.cfg.quirks.displayWait = false) : exec (.draw x y n) s = .next (s.drawSprite x y n) := by
  obtain ⟨⟨a, b, c, pending⟩, _⟩ | ⟨_, hq', _⟩ | ⟨_, _, he⟩ := execDraw_cases x y n s
  · exact absurd pending (hw a b c)
  · simp [hq] at hq'
  · exact he

end execution

/-! ### The range check of a sprite's n bytes (R220) -/

section range
variable {s : State} {n : Hex}

theorem State.withinRange_of_spriteFits (act : State → State)
    (h : n = 0 ∨ s.i.toNat + n.val - 1 < 4096) : s.withinRange n.val act = act s := by
  refine State.withinRange_ok s (s.indexRangeOk_iff.mpr ?_)
  rcases h with rfl | h
  · exact .inl rfl
  · omega

theorem State.withinRange_raises_of_spriteOverruns (act : State → State) (hn : n ≠ 0)
    (h : 4096 ≤ s.i.toNat + n.val - 1) : Raises s (s.withinRange n.val act)
      .memOutOfRange (.value (s.i.toNat + n.val - 1)) (s.pc - 2) := by
  have hpos : n.val ≠ 0 := Fin.val_ne_zero_iff.mpr hn
  have hbad : s.indexRangeOk n.val = false :=
    Bool.eq_false_iff.mpr fun hok => by have := s.indexRangeOk_iff.mp hok; omega
  rw [State.withinRange_fault s hbad]
  exact s.raiseExec_raises _ _

end range

/-! ### A pending draw: the cycle waits, the tick finishes it (R122, R131) -/

section pending
variable {s : State} {x y n : Hex}

theorem State.cycle_of_wait_ne_running (h : s.wait ≠ .running) : s.cycle = .next s := by
  have hc : s.condition ≠ .running := fun e => h (s.condition_running_iff.mp e).2
  obtain ⟨_, he⟩ | ⟨running, _⟩ | ⟨running, _⟩ | ⟨running, _⟩ := s.cycle_cases
  · exact he
  all_goals exact absurd running hc

/-- The tick with a draw pending is the timers' tick and then the draw behind its range check. -/
theorem State.frameTick_of_pending (hw : s.wait = .waitingForDisplayRefresh x y n) (hf : s.fault = none) :
    s.frameTick =
      s.decrementTimers.withinRange n.val (fun t => (t.paint x y n).setWait .running) := by
  have hw' : s.decrementTimers.wait = .waitingForDisplayRefresh x y n := hw
  rw [State.frameTick, State.unlessHalted_working s _ hf, State.finishDraw, hw']

theorem State.frameTick_of_pendingFits (hw : s.wait = .waitingForDisplayRefresh x y n) (hf : s.fault = none)
    (h : n = 0 ∨ s.i.toNat + n.val - 1 < 4096) :
    s.frameTick = (s.decrementTimers.paint x y n).setWait .running :=
  (State.frameTick_of_pending hw hf).trans (State.withinRange_of_spriteFits (s := s.decrementTimers) _ h)

theorem State.frameTick_raises_of_pendingOverruns (hw : s.wait = .waitingForDisplayRefresh x y n)
    (hf : s.fault = none) (hn : n ≠ 0) (h : 4096 ≤ s.i.toNat + n.val - 1) :
    Raises s.decrementTimers s.frameTick .memOutOfRange (.value (s.i.toNat + n.val - 1)) (s.pc - 2) := by
  rw [State.frameTick_of_pending hw hf]
  exact State.withinRange_raises_of_spriteOverruns (s := s.decrementTimers) _ hn h

end pending

/-! ### What the writes of a draw and a tick leave unchanged -/

/-- A wider list of exceptions. -/
theorem Unchanged.mono {s t : State} {but but' : List Part} (h : Unchanged s t but) (hsub : but ⊆ but') :
    Unchanged s t but' := fun p hp => h p fun e => hp (hsub e)

section frames
variable (s : State) (x y n : Hex)

theorem unchanged_but_fb (fb : Framebuffer) : Unchanged s { s with fb := fb } [.fb] := by
  intro p hp
  cases p with
  | fb => simp at hp
  | v | mem => exact fun _ => rfl
  | cfg | i | pc | stack | sp | dt | st | keys | wait | fault | draws | calls => rfl

theorem unchanged_setWait (w : Wait) : Unchanged s (s.setWait w) [.wait] := by
  intro p hp
  cases p with
  | wait => simp at hp
  | v | mem => exact fun _ => rfl
  | cfg | i | pc | stack | sp | dt | st | keys | fb | fault | draws | calls => rfl

theorem unchanged_decrementTimers : Unchanged s s.decrementTimers [.dt, .st] := by
  intro p hp
  cases p with
  | dt | st => simp at hp
  | v | mem => exact fun _ => rfl
  | cfg | i | pc | stack | sp | keys | fb | wait | fault | draws | calls => rfl

theorem unchanged_paint : Unchanged s (s.paint x y n) [.fb, .v] := by
  obtain ⟨v, fb, h⟩ := s.paint_others x y n
  rw [h]
  exact (unchanged_but_fb s fb).trans (unchanged_but_v _ v)

/-- The frame of a tick that draws: the timers' tick, the draw and the end of the wait (R131). -/
theorem unchanged_tickedPaint :
    Unchanged s ((s.decrementTimers.paint x y n).setWait .running) [.fb, .v, .wait, .dt, .st] :=
  ((unchanged_decrementTimers s).trans
    ((unchanged_paint _ x y n).trans (unchanged_setWait _ .running))).mono (by decide)

end frames

/-- What is drawn does not depend on WAIT or the timers, so a deferred draw is the draw that was put off. -/
theorem drawn_tickedPaint (s : State) (x y n : Hex) (w : Wait) :
    Drawn s (((s.setWait w).decrementTimers.paint x y n).setWait .running) x y n :=
  (s.setWait w).decrementTimers.drawn_paint x y n

/-! ### The obligations -/

/-- Settles O32. -/
theorem clearScreenTurnsEveryPixelOff : Obligations.ClearScreenTurnsEveryPixelOff := fun s =>
  ⟨decodeWord_clearScreen, _, exec_clearScreen s, Framebuffer.pixel_blank, unchanged_but_fb s _⟩

/-- Settles O33: deferred, the stash and then the tick's range check; immediate, the same check at once. -/
theorem drawDefersOrDraws : Obligations.DrawDefersOrDraws := by
  intro x y n s hw
  refine ⟨decodeWord_draw x y n, ?deferred, ?drawn, ?overruns⟩
  case deferred =>
    intro hq
    have pending := s.setWait_wait (.waitingForDisplayRefresh x y n)
    refine ⟨_, exec_draw_of_deferred hw hq, pending, unchanged_setWait s _, fun hf =>
      ⟨State.cycle_of_wait_ne_running Wait.noConfusion, fun hr => ?tickDraws,
        State.frameTick_raises_of_pendingOverruns pending hf⟩⟩
    case tickDraws =>
      rw [State.frameTick_of_pendingFits pending hf hr]
      exact ⟨drawn_tickedPaint s x y n _, rfl, unchanged_tickedPaint _ x y n⟩
  case drawn =>
    intro hq hr
    refine ⟨_, exec_draw_of_immediate hw hq, ?_⟩
    rw [State.drawSprite, State.withinRange_of_spriteFits _ hr]
    exact ⟨s.drawn_paint x y n, unchanged_paint s x y n⟩
  case overruns =>
    exact fun hq hn hr => ⟨_, exec_draw_of_immediate hw hq,
      State.withinRange_raises_of_spriteOverruns _ hn hr⟩

end Sys2Proof.Machine
end

section
/-! PROOF. Obligations O36 and O39: SKP, SKNP and the three timer instructions (45_keys_timers.md R280, R281,
R283 to R285). SKP and SKNP are the two skips on one Boolean, whether V[x] names a pressed key, so what the
keypad says of a byte and what the two skips make of a Boolean are said apart. -/

namespace Sys2Proof.Machine

/-! ### The operation each instruction is -/

section execution
variable (s : State) (x : Hex)

theorem exec_skipKeyPressed :
    exec (.skipKeyPressed x) s = .next (s.skipIf (s.keyPressed (s.getV x))) := rfl

theorem exec_skipKeyNotPressed :
    exec (.skipKeyNotPressed x) s = .next (s.skipIf (!s.keyPressed (s.getV x))) := rfl

theorem exec_loadDelay : exec (.loadDelay x) s = .next (s.setV x s.dt) := rfl

theorem exec_setDelay : exec (.setDelay x) s = .next { s with dt := s.getV x } := rfl

theorem exec_setSound : exec (.setSound x) s = .next { s with st := s.getV x } := rfl

end execution

/-! ### The keypad's answer about a byte (R280) -/

section keypad
variable {s : State} {b : Byte}

/-- A byte that is key k's code asks about key k. -/
theorem State.keyPressed_of_code {k : Hex} (h : b.toNat = k.val) : s.keyPressed b = s.keys[k] := by
  have hlt : b.toNat < 16 := h ▸ k.isLt
  rw [State.keyPressed, dif_pos hlt]
  simp only [h, Fin.getElem_fin]

/-- A byte above 15 is no key's code (D19). -/
theorem State.keyPressed_of_noCode (h : 15 < b.toNat) : s.keyPressed b = false :=
  dif_neg (Nat.not_lt.mpr h)

end keypad

/-! ### A skip on a Boolean and the skip on its negation -/

section skips
variable {s : State} {c : Bool}

theorem unchanged_skipIf : Unchanged s (s.skipIf c) [.pc] := by
  rw [State.skipIf_eq]
  exact unchanged_setPc s _

theorem State.pc_skipIf_of_true (h : c = true) :
    (s.skipIf c).pc = s.pc + 2 ∧ (s.skipIf !c).pc = s.pc := by
  subst h
  exact ⟨rfl, rfl⟩

theorem State.pc_skipIf_of_false (h : c = false) :
    (s.skipIf c).pc = s.pc ∧ (s.skipIf !c).pc = s.pc + 2 := by
  subst h
  exact ⟨rfl, rfl⟩

end skips

/-! ### The timers: what a write to them leaves unchanged, and the tone -/

section timers
variable (s : State)

theorem unchanged_but_dt_st (dt st : Byte) :
    Unchanged s { s with dt := dt, st := st } [.dt, .st] := by
  intro p hp
  cases p with
  | dt | st => simp at hp
  | v | mem => exact fun _ => rfl
  | cfg | i | pc | stack | sp | keys | fb | wait | fault | draws | calls => rfl

theorem unchanged_but_st (st : Byte) : Unchanged s { s with st := st } [.st] :=
  (unchanged_but_dt_st s s.dt st).drop rfl

theorem unchanged_but_dt (dt : Byte) : Unchanged s { s with dt := dt } [.dt] :=
  Unchanged.drop (p := .st) ((unchanged_but_dt_st s dt s.st).mono (by decide)) rfl

/-- The tone sounds exactly while `ST` is not 0 (R287). -/
theorem State.tone_iff : s.tone = true ↔ s.st ≠ 0 := bne_iff_ne

end timers

/-! ### The obligations -/

/-- Settles O36: both skip on the keypad's answer about all of V[x], which is `KEYS`'s entry for a key code
and false for any other byte. -/
theorem keySkips : Obligations.KeySkips := fun x s =>
  ⟨decodeWord_skipKeyPressed x, decodeWord_skipKeyNotPressed x, _, _,
    exec_skipKeyPressed s x, unchanged_skipIf, exec_skipKeyNotPressed s x, unchanged_skipIf,
    fun _ hcode hdown => State.pc_skipIf_of_true ((State.keyPressed_of_code hcode).trans hdown),
    fun _ hcode hup => State.pc_skipIf_of_false ((State.keyPressed_of_code hcode).trans hup),
    fun habove => State.pc_skipIf_of_false (State.keyPressed_of_noCode habove)⟩

/-- Settles O39: one write each, to V[x], `DT` and `ST`; the tone is read off the new `ST`. -/
theorem timerInstructions : Obligations.TimerInstructions := fun x s =>
  ⟨decodeWord_loadDelay x, decodeWord_setDelay x, decodeWord_setSound x,
    ⟨_, exec_loadDelay s x, s.getV_setV_self x s.dt, registersUnchanged_setV s x _, unchanged_setV s x _⟩,
    ⟨_, exec_setDelay s x, rfl, unchanged_but_dt s _⟩,
    ⟨_, exec_setSound s x, rfl, State.tone_iff _, unchanged_but_st s _⟩⟩

end Sys2Proof.Machine
end

section
/-! PROOF. Obligations O51 and O47: no step changes the parameters, and the state after construction
(70_reset_and_hazards.md R344, R340). For O51, each operation that an instruction or a host call is made of
keeps `cfg`; so does every instruction, and so does every host call. -/

namespace Sys2Proof.Machine

/-! ### The operations keep the parameters -/

section operations
variable (s : State)

@[simp] theorem State.skipIf_cfg (c : Bool) : (s.skipIf c).cfg = s.cfg := by
  rw [State.skipIf_eq, State.setPc_cfg]

@[simp] theorem State.raiseAt_cfg (kind : FaultKind) (info : FaultInfo) (a : Word) :
    (s.raiseAt kind info a).cfg = s.cfg := rfl

@[simp] theorem State.raiseExec_cfg (kind : FaultKind) (info : FaultInfo) :
    (s.raiseExec kind info).cfg = s.cfg := rfl

@[simp] theorem State.setLogicResult_cfg (x : Hex) (result : Byte) :
    (s.setLogicResult x result).cfg = s.cfg := unchanged_setLogicResult s x result .cfg (by decide)

@[simp] theorem State.storeBlock_cfg (i0 n : Nat) : (s.storeBlock i0 n).cfg = s.cfg :=
  unchanged_storeBlock s i0 n .cfg (by decide)

@[simp] theorem State.loadBlock_cfg (i0 n : Nat) : (s.loadBlock i0 n).cfg = s.cfg :=
  unchanged_loadBlock s i0 n .cfg (by decide)

@[simp] theorem State.paint_cfg (x y n : Hex) : (s.paint x y n).cfg = s.cfg := rfl

@[simp] theorem State.popThenJump_cfg : s.popThenJump.cfg = s.cfg := by
  by_cases h : 0 < s.sp.val
  · rw [s.popThenJump_entry h]
  · rw [s.popThenJump_empty h, State.raiseExec_cfg]

@[simp] theorem State.pushThenJump_cfg (target : Word) : (s.pushThenJump target).cfg = s.cfg := by
  by_cases h : s.sp.val < 16
  · rw [s.pushThenJump_room target h]
  · rw [s.pushThenJump_full target h, State.raiseExec_cfg]

/-- The range check keeps the parameters if the access behind it does. -/
theorem State.withinRange_cfg (m : Nat) {act : State → State} (h : (act s).cfg = s.cfg) :
    (s.withinRange m act).cfg = s.cfg := by
  obtain ⟨_, e⟩ | ⟨_, e⟩ := s.withinRange_cases m act
  · rw [e, h]
  · rw [e, State.raiseExec_cfg]

end operations

/-! ### Every instruction keeps the parameters -/

section instructions
variable (s : State)

theorem exec_sysCall_cfg (nnn : BitVec 12) : ∃ t, exec (.sysCall nnn) s = .next t ∧ t.cfg = s.cfg := by
  cases h : s.cfg.sysPolicy with
  | fault => exact ⟨_, exec_sysCall_of_fault s nnn h, s.raiseExec_cfg _ _⟩
  | nop => exact ⟨_, exec_sysCall_of_nop s nnn h, rfl⟩

theorem exec_addIndex_cfg (x : Hex) : ∃ t, exec (.addIndex x) s = .next t ∧ t.cfg = s.cfg := by
  by_cases h : s.i.toNat + (s.getV x).toNat ≤ 0xFFFF
  · exact ⟨_, exec_addIndex_of_le s x h, s.setI_cfg _⟩
  · cases hm : s.cfg.indexOverflow with
    | fault => exact ⟨_, exec_addIndex_of_fault s x (by omega) hm, s.raiseExec_cfg _ _⟩
    | wrap => exact ⟨_, exec_addIndex_of_wrap s x (by omega) hm, s.setI_cfg _⟩

theorem exec_draw_cfg (x y n : Hex) : ∃ t, exec (.draw x y n) s = .next t ∧ t.cfg = s.cfg := by
  obtain ⟨_, e⟩ | ⟨_, _, e⟩ | ⟨_, _, e⟩ := execDraw_cases x y n s
  · exact ⟨_, e, s.raiseExec_cfg _ _⟩
  · exact ⟨_, e, s.setWait_cfg _⟩
  · exact ⟨_, e, s.withinRange_cfg _ (s.paint_cfg x y n)⟩

/-- Each instruction answers a state with the parameters it was given (R41). -/
theorem exec_cfg (i : Instr) : ∃ t, exec i s = .next t ∧ t.cfg = s.cfg := by
  cases i with
  | clearScreen | jump | jumpOffset | loadImm | addImm | move | addReg | sub | subReverse | shiftRight
  | shiftLeft | random | loadIndex | loadGlyph | loadDelay | setDelay | setSound | waitKey =>
    exact ⟨_, rfl, rfl⟩
  | skipEqImm | skipNeImm | skipEqReg | skipNeReg | skipKeyPressed | skipKeyNotPressed =>
    exact ⟨_, rfl, s.skipIf_cfg _⟩
  | orReg | andReg | xorReg => exact ⟨_, rfl, s.setLogicResult_cfg _ _⟩
  | ret => exact ⟨_, rfl, s.popThenJump_cfg⟩
  | call nnn => exact ⟨_, rfl, s.pushThenJump_cfg _⟩
  | storeBcd x => exact ⟨_, exec_storeBcd s x, s.withinRange_cfg _ rfl⟩
  | storeRegisters x => exact ⟨_, exec_storeRegisters s x, s.withinRange_cfg _ (s.storeBlock_cfg _ _)⟩
  | loadRegisters x => exact ⟨_, exec_loadRegisters s x, s.withinRange_cfg _ (s.loadBlock_cfg _ _)⟩
  | sysCall nnn => exact exec_sysCall_cfg s nnn
  | addIndex x => exact exec_addIndex_cfg s x
  | draw x y n => exact exec_draw_cfg s x y n

end instructions

/-! ### Every host call keeps the parameters -/

section hostCalls
variable (s : State)

/-- A call behind the check for Halted keeps the parameters if its work does. -/
theorem State.unlessHalted_cfg {act : State → State} (h : (act s).cfg = s.cfg) :
    (s.unlessHalted act).cfg = s.cfg := by
  cases hf : s.fault with
  | some r => rw [s.unlessHalted_halted act hf]
  | none => rw [s.unlessHalted_working act hf, h]

@[simp] theorem State.latchKey_cfg (k : Hex) : (s.latchKey k).cfg = s.cfg := by
  obtain ⟨_, _, _, e⟩ | ⟨_, e⟩ := s.latchKey_cases k
  · rw [e, State.setWait_cfg, State.setV_cfg]
  · rw [e]

@[simp] theorem State.endKeyWait_cfg (k : Hex) : (s.endKeyWait k).cfg = s.cfg := by
  obtain ⟨_, _, e⟩ | ⟨_, e⟩ := s.endKeyWait_cases k
  · rw [e, State.setWait_cfg]
  · rw [e]

@[simp] theorem State.finishDraw_cfg : s.finishDraw.cfg = s.cfg := by
  obtain ⟨_, _, _, _, ⟨_, e⟩ | ⟨_, e⟩⟩ | ⟨_, e⟩ := s.finishDraw_cases
  · rw [e, State.setWait_cfg, State.paint_cfg]
  · rw [e, State.raiseExec_cfg]
  · rw [e]

@[simp] theorem State.frameTick_cfg : s.frameTick.cfg = s.cfg :=
  s.unlessHalted_cfg s.decrementTimers.finishDraw_cfg

@[simp] theorem State.keyPress_cfg (k : Hex) : (s.keyPress k).cfg = s.cfg :=
  s.unlessHalted_cfg (State.latchKey_cfg _ k)

@[simp] theorem State.keyRelease_cfg (k : Hex) : (s.keyRelease k).cfg = s.cfg :=
  s.unlessHalted_cfg (State.endKeyWait_cfg _ k)

/-- A load constructs the core anew with the parameters it has (R342, R344). -/
@[simp] theorem State.loadProgram_cfg (image : List Byte) : (s.loadProgram image).cfg = s.cfg := by
  rw [State.loadProgram]
  split <;> rfl

end hostCalls

/-- The one case of a step that is not a named operation is the execution of an instruction. -/
theorem step_cfg {s t : State} (h : step s = .next t) : t.cfg = s.cfg := by
  obtain rfl | ⟨kind, info, a, _, rfl⟩ | ⟨_, _, _, i, _, executed⟩ | rfl | ⟨k, rfl⟩ | ⟨k, rfl⟩ |
    ⟨image, rfl⟩ := step_cases s h
  case inr.inr.inl =>
    obtain ⟨u, answer, kept⟩ := exec_cfg s.takeCall.advancePc i
    cases answer.symm.trans executed
    exact kept
  all_goals simp

/-! ### Memory after construction -/

/-- A constructed core lists no byte, so each address reads as an unlisted one (R340). -/
theorem State.readByte_construct (c : Config) (a : Nat) :
    (State.construct c).readByte a = Memory.unlisted c.glyphs a := rfl

theorem Memory.unlisted_of_lt {g : Vector Byte 80} {a : Nat} (h : a < 80) : Memory.unlisted g a = g[a] :=
  dif_pos h

/-! ### The obligations -/

/-- Settles O51: construction by definition, a step by the cases of a step. -/
theorem configurationNeverChanges : Obligations.ConfigurationNeverChanges :=
  ⟨fun _ => rfl, fun _ _ => step_cfg⟩

/-- Settles O47: memory reads as unlisted; the vectors are constant; the rest is `construct`'s own fields. -/
theorem powerOnState : Obligations.PowerOnState := by
  rintro c _ rfl
  refine ⟨?glyphs, ?zeroes, ?registers, rfl, rfl, rfl, ?stack, rfl, rfl, rfl, ?keys,
    Framebuffer.pixel_blank, rfl, rfl, rfl⟩
  case glyphs => exact fun a h => (State.readByte_construct c a).trans (Memory.unlisted_of_lt h)
  case zeroes => exact fun a h _ => (State.readByte_construct c a).trans (Memory.unlisted_of_le h)
  all_goals exact fun k => Vector.getElem_replicate k.isLt

end Sys2Proof.Machine
end

section
/-! PROOF. Obligations O1, O2, O4 and O5: the decoder and the encoder undo each other, and which words fail
to decode (30_encoding.md R82, R88, R95, R96, R99). Everything follows the decoder's two switches: what holds
of a word is said first for the second switch of families 8, E and F, then for the first. -/

namespace Sys2Proof

/-! ### From the instruction to its word and back (R88, R99) -/

/-- One row of R88 for each constructor; only SYS has words that are not its own. -/
theorem decodeWord_encodeWord {i : Instr} (h : i.wellFormed = true) :
    decodeWord (encodeWord i) = .instr i := by
  cases i with
  | clearScreen => exact decodeWord_clearScreen
  | ret => exact decodeWord_ret
  | sysCall nnn =>
    obtain ⟨hcls, hret⟩ : nnn ≠ 0x0E0#12 ∧ nnn ≠ 0x0EE#12 := by simpa [Instr.wellFormed] using h
    exact decodeWord_sysCall nnn hcls hret
  | jump nnn => exact decodeWord_jump nnn
  | call nnn => exact decodeWord_call nnn
  | skipEqImm x kk => exact decodeWord_skipEqImm x kk
  | skipNeImm x kk => exact decodeWord_skipNeImm x kk
  | skipEqReg x y => exact decodeWord_skipEqReg x y
  | loadImm x kk => exact decodeWord_loadImm x kk
  | addImm x kk => exact decodeWord_addImm x kk
  | move x y => exact decodeWord_move x y
  | orReg x y => exact decodeWord_orReg x y
  | andReg x y => exact decodeWord_andReg x y
  | xorReg x y => exact decodeWord_xorReg x y
  | addReg x y => exact decodeWord_addReg x y
  | sub x y => exact decodeWord_sub x y
  | shiftRight x y => exact decodeWord_shiftRight x y
  | subReverse x y => exact decodeWord_subReverse x y
  | shiftLeft x y => exact decodeWord_shiftLeft x y
  | skipNeReg x y => exact decodeWord_skipNeReg x y
  | loadIndex nnn => exact decodeWord_loadIndex nnn
  | jumpOffset nnn => exact decodeWord_jumpOffset nnn
  | random x kk => exact decodeWord_random x kk
  | draw x y n => exact decodeWord_draw x y n
  | skipKeyPressed x => exact decodeWord_skipKeyPressed x
  | skipKeyNotPressed x => exact decodeWord_skipKeyNotPressed x
  | loadDelay x => exact decodeWord_loadDelay x
  | waitKey x => exact decodeWord_waitKey x
  | setDelay x => exact decodeWord_setDelay x
  | setSound x => exact decodeWord_setSound x
  | addIndex x => exact decodeWord_addIndex x
  | loadGlyph x => exact decodeWord_loadGlyph x
  | storeBcd x => exact decodeWord_storeBcd x
  | storeRegisters x => exact decodeWord_storeRegisters x
  | loadRegisters x => exact decodeWord_loadRegisters x

theorem decode_of_decodeWord {hi lo : Byte} {i : Instr} (rest : List Byte)
    (h : decodeWord (wordOfBytes hi lo) = .instr i) : decode (hi :: lo :: rest) = .ok (i, rest) := by
  rw [decode_pair, h]

/-! ### A word from the fields that a row fixes (R80) -/

section packs
variable {w : Word} {a d : BitVec 4} {kk : Byte}

theorem packAddr_of_nibbleA (ha : nibbleA w = a) : packAddr a (fieldNnn w) = w := by
  rw [← ha, packAddr_fields]

theorem packImm_of_nibbleA (ha : nibbleA w = a) : packImm a (fieldX w) (fieldKk w) = w := by
  rw [← ha, packImm_fields]

theorem packImm_of_fields (ha : nibbleA w = a) (hk : fieldKk w = kk) : packImm a (fieldX w) kk = w := by
  rw [← ha, ← hk, packImm_fields]

theorem packReg_of_fields (ha : nibbleA w = a) (hd : nibbleD w = d) :
    packReg a (fieldX w) (fieldY w) d = w := by
  rw [← ha, ← hd, packReg_fields]

end packs

/-! ### The last arm of a switch -/

/-- The last arm of the first switch is family F. -/
theorem eq_0xF_of_notMem : ∀ a : BitVec 4, a ∉ [0x0#4, 0x1#4, 0x2#4, 0x3#4, 0x4#4, 0x5#4, 0x6#4, 0x7#4,
    0x8#4, 0x9#4, 0xA#4, 0xB#4, 0xC#4, 0xD#4, 0xE#4] → a = 0xF#4 := by decide

/-- The last arm of family 8's switch: the sub-opcodes without a row. -/
theorem mem_of_notMem_subopcodes : ∀ d : BitVec 4,
    d ∉ [0x0#4, 0x1#4, 0x2#4, 0x3#4, 0x4#4, 0x5#4, 0x6#4, 0x7#4, 0xE#4] →
    d ∈ [0x8#4, 0x9#4, 0xA#4, 0xB#4, 0xC#4, 0xD#4, 0xF#4] := by decide

/-! ### From a word to what it decodes to and back (R96) -/

/-- If d is an instruction, it is well-formed and w is its word. -/
def DecodeResult.EncodesTo (d : DecodeResult) (w : Word) : Prop :=
  ∀ i, d = .instr i → encodeWord i = w ∧ i.wellFormed = true

section back
variable {w : Word}

theorem DecodeResult.encodesTo_failure : DecodeResult.decodeFailure.EncodesTo w := fun _ h => nomatch h

theorem DecodeResult.encodesTo_instr {i : Instr} (hw : encodeWord i = w) (hi : i.wellFormed = true) :
    (DecodeResult.instr i).EncodesTo w := by
  rintro _ ⟨⟩
  exact ⟨hw, hi⟩

open DecodeResult in
theorem decodeFamily8_encodesTo (ha : nibbleA w = 0x8#4) : (decodeFamily8 w).EncodesTo w := by
  rw [decodeFamily8]
  split
  case h_10 => exact encodesTo_failure
  all_goals exact encodesTo_instr (packReg_of_fields ha ‹_›) rfl

open DecodeResult in
theorem decodeFamilyE_encodesTo (ha : nibbleA w = 0xE#4) : (decodeFamilyE w).EncodesTo w := by
  rw [decodeFamilyE]
  split
  case h_3 => exact encodesTo_failure
  all_goals exact encodesTo_instr (packImm_of_fields ha ‹_›) rfl

open DecodeResult in
theorem decodeFamilyF_encodesTo (ha : nibbleA w = 0xF#4) : (decodeFamilyF w).EncodesTo w := by
  rw [decodeFamilyF]
  split
  case h_10 => exact encodesTo_failure
  all_goals exact encodesTo_instr (packImm_of_fields ha ‹_›) rfl

/-- In family 0, what is neither of the two exact words is a well-formed SYS (R82). -/
theorem wellFormed_sysCall_of_ne (ha : nibbleA w = 0x0#4) (hcls : w ≠ 0x00E0#16) (hret : w ≠ 0x00EE#16) :
    (Instr.sysCall (fieldNnn w)).wellFormed = true := by
  have hne {nnn : BitVec 12} (h : w ≠ packAddr 0x0#4 nnn) : fieldNnn w ≠ nnn := fun e =>
    h (e ▸ (packAddr_of_nibbleA ha).symm)
  simp only [Instr.wellFormed, Bool.and_eq_true, bne_iff_ne]
  exact ⟨hne hcls, hne hret⟩

open DecodeResult in
/-- The first switch: families of one row by their fields, those with a second switch by its lemma. -/
theorem decodeFamily_encodesTo (hcls : w ≠ 0x00E0#16) (hret : w ≠ 0x00EE#16) :
    (decodeFamily w).EncodesTo w := by
  rw [decodeFamily]
  split
  case h_1 ha => exact encodesTo_instr (packAddr_of_nibbleA ha) (wellFormed_sysCall_of_ne ha hcls hret)
  case h_2 ha | h_3 ha | h_11 ha | h_12 ha => exact encodesTo_instr (packAddr_of_nibbleA ha) rfl
  case h_4 ha | h_5 ha | h_7 ha | h_8 ha | h_13 ha => exact encodesTo_instr (packImm_of_nibbleA ha) rfl
  case h_6 ha | h_10 ha =>
    split
    · exact encodesTo_instr (packReg_of_fields ha ‹_›) rfl
    · exact encodesTo_failure
  case h_9 ha => exact decodeFamily8_encodesTo ha
  case h_14 ha => exact encodesTo_instr (packReg_of_fields ha rfl) rfl
  case h_15 ha => exact decodeFamilyE_encodesTo ha
  case h_16 => exact decodeFamilyF_encodesTo (eq_0xF_of_notMem _ (by simp_all))

open DecodeResult in
theorem decodeWord_encodesTo (w : Word) : (decodeWord w).EncodesTo w := by
  rw [decodeWord]
  split
  next hcls => exact encodesTo_instr hcls.symm rfl
  next hcls =>
    split
    next hret => exact encodesTo_instr hret.symm rfl
    next hret => exact decodeFamily_encodesTo hcls hret

end back

/-! ### The words of no row (R95) -/

section failures
variable (w : Word)

theorem decodeFamily8_eq_failure_iff : decodeFamily8 w = .decodeFailure ↔
    nibbleD w ∈ [0x8#4, 0x9#4, 0xA#4, 0xB#4, 0xC#4, 0xD#4, 0xF#4] := by
  rw [decodeFamily8]
  split
  case h_10 => exact iff_of_true rfl (mem_of_notMem_subopcodes _ (by simp_all))
  all_goals rename_i hd; simp [hd]

theorem decodeFamilyE_eq_failure_iff :
    decodeFamilyE w = .decodeFailure ↔ fieldKk w ∉ [0x9E#8, 0xA1#8] := by
  rw [decodeFamilyE]
  split <;> simp_all

theorem decodeFamilyF_eq_failure_iff : decodeFamilyF w = .decodeFailure ↔
    fieldKk w ∉ [0x07#8, 0x0A#8, 0x15#8, 0x18#8, 0x1E#8, 0x29#8, 0x33#8, 0x55#8, 0x65#8] := by
  rw [decodeFamilyF]
  split <;> simp_all

theorem decodeFamily_eq_failure_iff : decodeFamily w = .decodeFailure ↔
    (nibbleA w = 0x5#4 ∧ nibbleD w ≠ 0x0#4) ∨
    (nibbleA w = 0x8#4 ∧ decodeFamily8 w = .decodeFailure) ∨
    (nibbleA w = 0x9#4 ∧ nibbleD w ≠ 0x0#4) ∨
    (nibbleA w = 0xE#4 ∧ decodeFamilyE w = .decodeFailure) ∨
    (nibbleA w = 0xF#4 ∧ decodeFamilyF w = .decodeFailure) := by
  rw [decodeFamily]
  split
  case h_16 =>
    have ha := eq_0xF_of_notMem (nibbleA w) (by simp_all)
    simp [ha]
  all_goals rename_i ha; simp [ha]

/-- The two exact words are of family 0, where no word fails (R95). -/
theorem decodeWord_eq_failure_iff :
    decodeWord w = .decodeFailure ↔ decodeFamily w = .decodeFailure := by
  by_cases ha : nibbleA w = 0x0#4
  · have family : decodeFamily w ≠ .decodeFailure := by simp [decodeFamily, ha]
    refine iff_of_false (fun h => ?_) family
    rw [decodeWord] at h
    split at h
    · cases h
    · split at h
      · cases h
      · exact family h
  · rw [decodeWord_of_nibbleA_ne ha]

end failures

/-! ### The obligations -/

/-- Settles O1: the two bytes of an instruction are those of its word, and its word decodes to it. -/
theorem decodeOfEncodeIsTheInstruction : Obligations.DecodeOfEncodeIsTheInstruction := by
  intro i rest h
  refine decode_of_decodeWord rest ?_
  rw [wordOfBytes_bytes, decodeWord_encodeWord h]

/-- Settles O2. -/
theorem decodedWordIsItsOwnEncoding : Obligations.DecodedWordIsItsOwnEncoding := decodeWord_encodesTo

/-- Settles O4: the first switch names the families with failures, the second their words. -/
theorem decodeFailuresAreTheListedWords : Obligations.DecodeFailuresAreTheListedWords := by
  intro w
  rw [decodeWord_eq_failure_iff, decodeFamily_eq_failure_iff, decodeFamily8_eq_failure_iff,
    decodeFamilyE_eq_failure_iff, decodeFamilyF_eq_failure_iff]

/-- Settles O5: closed words, read off the decoder. -/
theorem listedWordsDecode : Obligations.ListedWordsDecode := by
  unfold Obligations.ListedWordsDecode
  decide

end Sys2Proof
end

section
/-! PROOF. Obligations O52, O53 and O54: which pieces of the state an instruction writes and which faults it
raises (10_state.md R20 to R44, 60_exceptions.md R312 to R315). Both are tables over the instructions, and
`exec_effect` says once that an instruction keeps to its rows: it writes pieces of its own, or raises one of
its faults and writes nothing else. -/

namespace Sys2Proof
open Machine (Part FaultKind)

/-! ### The two tables -/

/-- The pieces that an instruction writes when it raises no fault. -/
def Instr.writes : Instr → List Part
  | .sysCall _ => []
  | .clearScreen => [.fb]
  | .ret => [.sp, .pc]
  | .call _ => [.stack, .sp, .pc]
  | .jump _ | .jumpOffset _ | .skipEqImm _ _ | .skipNeImm _ _ | .skipEqReg _ _ | .skipNeReg _ _
  | .skipKeyPressed _ | .skipKeyNotPressed _ => [.pc]
  | .loadImm _ _ | .addImm _ _ | .move _ _ | .orReg _ _ | .andReg _ _ | .xorReg _ _ | .addReg _ _
  | .sub _ _ | .shiftRight _ _ | .subReverse _ _ | .shiftLeft _ _ | .loadDelay _ => [.v]
  | .random _ _ => [.draws, .v]
  | .loadIndex _ | .addIndex _ | .loadGlyph _ => [.i]
  | .draw _ _ _ => [.fb, .v, .wait]
  | .waitKey _ => [.wait]
  | .setDelay _ => [.dt]
  | .setSound _ => [.st]
  | .storeBcd _ => [.mem]
  | .storeRegisters _ => [.mem, .i]
  | .loadRegisters _ => [.v, .i]

/-- The faults that an instruction raises (R312). -/
def Instr.faultKinds : Instr → List FaultKind
  | .ret => [.stackUnderflow]
  | .sysCall _ => [.sysUnsupported]
  | .call _ => [.stackOverflow]
  | .draw _ _ _ => [.memOutOfRange, .drawWhilePending]
  | .addIndex _ => [.indexOverflow]
  | .storeBcd _ | .storeRegisters _ | .loadRegisters _ => [.memOutOfRange]
  | .clearScreen | .jump _ | .jumpOffset _ | .skipEqImm _ _ | .skipNeImm _ _ | .skipEqReg _ _
  | .skipNeReg _ _ | .skipKeyPressed _ | .skipKeyNotPressed _ | .loadImm _ _ | .addImm _ _ | .move _ _
  | .orReg _ _ | .andReg _ _ | .xorReg _ _ | .addReg _ _ | .sub _ _ | .shiftRight _ _
  | .subReverse _ _ | .shiftLeft _ _ | .loadDelay _ | .random _ _ | .loadIndex _ | .loadGlyph _
  | .waitKey _ | .setDelay _ | .setSound _ => []

end Sys2Proof

namespace Sys2Proof.Machine

/-- t is s after an instruction that writes `parts` and raises `kinds`: nothing but the pieces has changed,
memory being the same list unless it is one of them, or one of the faults is raised. -/
def Effect (parts : List Part) (kinds : List FaultKind) (s t : State) : Prop :=
  (Unchanged s t parts ∧ (Part.mem ∉ parts → t.mem = s.mem)) ∨
    ∃ kind ∈ kinds, ∃ info, t = s.raiseExec kind info

/-! ### Every instruction keeps to its rows -/

section effects
variable (s : State)

theorem Unchanged.refl : Unchanged s s [] := (unchanged_setPc s s.pc).drop rfl

theorem unchanged_but_draws (draws : Nat) : Unchanged s { s with draws := draws } [.draws] := by
  intro p hp
  cases p with
  | draws => simp at hp
  | v | mem => exact fun _ => rfl
  | cfg | i | pc | stack | sp | dt | st | keys | fb | wait | fault | calls => rfl

theorem unchanged_takeRandom_setV (x : Hex) (b : Byte) :
    Unchanged s (s.takeRandom.setV x b) [.draws, .v] :=
  (unchanged_but_draws s _).trans (unchanged_setV s.takeRandom x b)

theorem State.skipIf_mem (c : Bool) : (s.skipIf c).mem = s.mem := by rw [State.skipIf_eq, State.setPc_mem]

theorem State.setLogicResult_mem (x : Hex) (b : Byte) : (s.setLogicResult x b).mem = s.mem := by
  rw [State.setLogicResult]
  split <;> rfl

theorem State.loadBlock_mem (i0 n : Nat) : (s.loadBlock i0 n).mem = s.mem := by
  obtain ⟨v, i, h⟩ := s.loadBlock_others i0 n
  rw [h]

variable {s} {t : State} {parts : List Part} {kinds : List FaultKind}

/-- Writes of pieces other than memory. -/
theorem Effect.of_unchanged (hu : Unchanged s t parts) (hm : t.mem = s.mem) : Effect parts kinds s t :=
  .inl ⟨hu, fun _ => hm⟩

/-- Writes of memory among others. -/
theorem Effect.of_stored (hu : Unchanged s t parts) (hm : Part.mem ∈ parts) : Effect parts kinds s t :=
  .inl ⟨hu, fun h => absurd hm h⟩

theorem Effect.of_raised {kind : FaultKind} (info : FaultInfo) (hk : kind ∈ kinds) :
    Effect parts kinds s (s.raiseExec kind info) := .inr ⟨kind, hk, info, rfl⟩

/-- An access behind the range check has the effect of the access, or raises MemOutOfRange (R220). -/
theorem Effect.withinRange {m : Nat} {act : State → State} (h : Effect parts kinds s (act s))
    (hk : FaultKind.memOutOfRange ∈ kinds) : Effect parts kinds s (s.withinRange m act) := by
  obtain ⟨_, e⟩ | ⟨_, e⟩ := s.withinRange_cases m act
  · rwa [e]
  · rw [e]; exact .of_raised _ hk

theorem effect_popThenJump : Effect [.sp, .pc] [.stackUnderflow] s s.popThenJump := by
  by_cases h : 0 < s.sp.val
  · rw [s.popThenJump_entry h]; exact .of_unchanged (unchanged_but_sp_pc s _ _) rfl
  · rw [s.popThenJump_empty h]; exact .of_raised _ List.mem_cons_self

theorem effect_pushThenJump (target : Word) :
    Effect [.stack, .sp, .pc] [.stackOverflow] s (s.pushThenJump target) := by
  by_cases h : s.sp.val < 16
  · rw [s.pushThenJump_room target h]; exact .of_unchanged (unchanged_but_stack_sp_pc s _ _ _) rfl
  · rw [s.pushThenJump_full target h]; exact .of_raised _ List.mem_cons_self

end effects

section instructions
variable (s : State)

theorem exec_sysCall_effect (nnn : BitVec 12) :
    ∃ t, exec (.sysCall nnn) s = .next t ∧ Effect [] [.sysUnsupported] s t := by
  cases h : s.cfg.sysPolicy with
  | fault => exact ⟨_, exec_sysCall_of_fault s nnn h, .of_raised _ List.mem_cons_self⟩
  | nop => exact ⟨_, exec_sysCall_of_nop s nnn h, .of_unchanged (Unchanged.refl s) rfl⟩

theorem exec_addIndex_effect (x : Hex) :
    ∃ t, exec (.addIndex x) s = .next t ∧ Effect [.i] [.indexOverflow] s t := by
  by_cases h : s.i.toNat + (s.getV x).toNat ≤ 0xFFFF
  · exact ⟨_, exec_addIndex_of_le s x h, .of_unchanged (unchanged_setI s _) rfl⟩
  · cases hm : s.cfg.indexOverflow with
    | fault => exact ⟨_, exec_addIndex_of_fault s x (by omega) hm, .of_raised _ List.mem_cons_self⟩
    | wrap => exact ⟨_, exec_addIndex_of_wrap s x (by omega) hm, .of_unchanged (unchanged_setI s _) rfl⟩

theorem exec_draw_effect (x y n : Hex) : ∃ t, exec (.draw x y n) s = .next t ∧
    Effect [.fb, .v, .wait] [.memOutOfRange, .drawWhilePending] s t := by
  obtain ⟨_, e⟩ | ⟨_, _, e⟩ | ⟨_, _, e⟩ := execDraw_cases x y n s
  · exact ⟨_, e, .of_raised _ (by decide)⟩
  · exact ⟨_, e, .of_unchanged ((unchanged_setWait s _).mono (by decide)) rfl⟩
  · exact ⟨_, e, .withinRange (.of_unchanged ((unchanged_paint s x y n).mono (by decide)) rfl) (by decide)⟩

/-- Each instruction answers a next state, in which it has written its own pieces or raised one of its own
faults. -/
theorem exec_effect (i : Instr) : ∃ t, exec i s = .next t ∧ Effect i.writes i.faultKinds s t := by
  cases i with
  | clearScreen => exact ⟨_, rfl, .of_unchanged (unchanged_but_fb s _) rfl⟩
  | ret => exact ⟨_, rfl, effect_popThenJump⟩
  | sysCall nnn => exact exec_sysCall_effect s nnn
  | call nnn => exact ⟨_, rfl, effect_pushThenJump _⟩
  | jump | jumpOffset => exact ⟨_, rfl, .of_unchanged (unchanged_setPc s _) rfl⟩
  | skipEqImm | skipNeImm | skipEqReg | skipNeReg | skipKeyPressed | skipKeyNotPressed =>
    exact ⟨_, rfl, .of_unchanged unchanged_skipIf (s.skipIf_mem _)⟩
  | loadImm | addImm | move | loadDelay => exact ⟨_, rfl, .of_unchanged (unchanged_setV s _ _) rfl⟩
  | orReg | andReg | xorReg =>
    exact ⟨_, rfl, .of_unchanged (unchanged_setLogicResult s _ _) (s.setLogicResult_mem _ _)⟩
  | addReg | sub | subReverse | shiftRight | shiftLeft =>
    exact ⟨_, rfl, .of_unchanged (unchanged_setVThenFlag s _ _ _) rfl⟩
  | random => exact ⟨_, rfl, .of_unchanged (unchanged_takeRandom_setV s _ _) rfl⟩
  | loadIndex | loadGlyph => exact ⟨_, rfl, .of_unchanged (unchanged_setI s _) rfl⟩
  | addIndex x => exact exec_addIndex_effect s x
  | draw x y n => exact exec_draw_effect s x y n
  | waitKey => exact ⟨_, rfl, .of_unchanged (unchanged_setWait s _) rfl⟩
  | setDelay => exact ⟨_, rfl, .of_unchanged (unchanged_but_dt s _) rfl⟩
  | setSound => exact ⟨_, rfl, .of_unchanged (unchanged_but_st s _) rfl⟩
  | storeBcd =>
    exact ⟨_, rfl,
      .withinRange (.of_stored (unchanged_storeDigits s _) List.mem_cons_self) List.mem_cons_self⟩
  | storeRegisters =>
    exact ⟨_, rfl,
      .withinRange (.of_stored (unchanged_storeBlock s _ _) List.mem_cons_self) List.mem_cons_self⟩
  | loadRegisters =>
    exact ⟨_, rfl,
      .withinRange (.of_unchanged (unchanged_loadBlock s _ _) (s.loadBlock_mem _ _)) List.mem_cons_self⟩

theorem effect_of_exec {i : Instr} {s t : State} (h : exec i s = .next t) :
    Effect i.writes i.faultKinds s t := by
  obtain ⟨u, answer, effect⟩ := exec_effect s i
  cases answer.symm.trans h
  exact effect

end instructions

/-! ### What an effect leaves unchanged -/

section kept
variable {s t : State} {parts : List Part} {kinds : List FaultKind}

theorem unchanged_but_fault (s : State) (fault : Option FaultRecord) :
    Unchanged s { s with fault := fault } [.fault] := by
  intro p hp
  cases p with
  | fault => simp at hp
  | v | mem => exact fun _ => rfl
  | cfg | i | pc | stack | sp | dt | st | keys | fb | wait | draws | calls => rfl

/-- A piece outside the row is the same; a fault changes none but FAULT. -/
theorem Effect.same (h : Effect parts kinds s t) {p : Part} (hp : p ∉ parts) (hf : p ≠ .fault) :
    p.Same s t := by
  obtain ⟨hu, _⟩ | ⟨kind, _, info, rfl⟩ := h
  · exact hu p hp
  · exact unchanged_but_fault s _ p (mt List.mem_singleton.mp hf)

theorem Effect.v_eq (h : Effect parts kinds s t) (hp : Part.v ∉ parts) : t.v = s.v :=
  Vector.ext fun k hk => h.same hp (by decide) ⟨k, hk⟩

theorem Effect.mem_eq (h : Effect parts kinds s t) (hp : Part.mem ∉ parts) : t.mem = s.mem := by
  obtain ⟨_, hm⟩ | ⟨_, _, _, rfl⟩ := h
  · exact hm hp
  · rfl

/-- What a fault leaves: the record, of one of the kinds and about the instruction, and nothing else. -/
theorem Effect.fault_cases (h : Effect parts kinds s t) (hp : Part.fault ∉ parts) :
    t.fault = s.fault ∨ ∃ r, r.kind ∈ kinds ∧ r.addr = s.pc - 2 ∧ t = { s with fault := some r } := by
  obtain ⟨hu, _⟩ | ⟨kind, hk, info, rfl⟩ := h
  · exact .inl (hu .fault hp)
  · exact .inr ⟨_, hk, rfl, rfl⟩

/-- A piece that has changed is in the row. -/
theorem Effect.mem_of_not_same (h : Effect parts kinds s t) {p : Part} (hf : p ≠ .fault)
    (hp : ¬ p.Same s t) : p ∈ parts := Decidable.byContradiction fun hn => hp (h.same hn hf)

theorem Effect.kinds_ne_nil (h : Effect parts kinds s t) (hp : Part.fault ∉ parts)
    (hf : t.fault ≠ s.fault) : kinds ≠ [] := by
  obtain same | ⟨_, hk, _⟩ := h.fault_cases hp
  · exact absurd same hf
  · exact List.ne_nil_of_mem hk

/-- No row has KEYS, the parameters or the calls; and FAULT has the table of its own. -/
theorem notMem_writes (i : Instr) :
    Part.keys ∉ i.writes ∧ Part.cfg ∉ i.writes ∧ Part.calls ∉ i.writes ∧ Part.fault ∉ i.writes := by
  cases i <;> simp [Instr.writes]

theorem fault_notMem_writes (i : Instr) : Part.fault ∉ i.writes := (notMem_writes i).2.2.2

end kept

/-! ### VF -/

/-- A write to V[x] changes VF only if x is 15. -/
theorem getV_15_setV_of_ne {s : State} {x : Hex} {b : Byte} (h : (s.setV x b).getV 15 ≠ s.getV 15) :
    x = 15 := by
  refine Decidable.byContradiction fun hx => ?_
  rw [State.getV_setV, if_neg (Ne.symm hx)] at h
  exact h rfl

theorem getV_15_loadRegisters_of_ne {s t : State} {x : Hex} (he : exec (.loadRegisters x) s = .next t)
    (h : t.getV 15 ≠ s.getV 15) : x = 15 := by
  rw [exec_loadRegisters] at he
  cases he
  obtain ⟨_, e⟩ | ⟨_, e⟩ := s.withinRange_cases (x.val + 1) (fun t => t.loadBlock t.i.toNat (x.val + 1))
  · refine Decidable.byContradiction fun hx => ?_
    have above : ¬ (15 : Hex).val < x.val + 1 := fun hlt => hx (Fin.ext (by have := x.isLt; omega))
    rw [e, State.getV_loadBlock s _ _ x.isLt, if_neg above] at h
    exact h rfl
  · rw [e] at h
    exact absurd rfl h

/-! ### The obligations -/

/-- Settles O52: an effect that raises a fault is that fault, and the kinds are the table's. -/
theorem executionFaultsArePrecise : Obligations.ExecutionFaultsArePrecise := by
  intro i s t r running he hr
  obtain same | ⟨r', hk, ha, ht⟩ := (effect_of_exec he).fault_cases (fault_notMem_writes i)
  · simp [same, running] at hr
  · obtain rfl : r' = r := by simpa [ht] using hr
    refine ⟨ht, ha, ?_⟩
    cases i <;> simp_all [Instr.faultKinds]

/-- Settles O53: a piece that has changed is in the instruction's row of `Instr.writes`, and a changed FAULT
means that its row of `Instr.faultKinds` is not empty. -/
theorem onlyNamedInstructionsWriteEachPiece : Obligations.OnlyNamedInstructionsWriteEachPiece := by
  intro i s t he
  have effect := effect_of_exec he
  obtain ⟨keys, cfg, calls, fault⟩ := notMem_writes i
  refine ⟨effect.same keys (by decide), effect.same cfg (by decide), effect.same calls (by decide),
    fun h => ?v, fun h => ?pc, fun h => ?fault, fun h => ?stack, fun h => ?sp, fun h => ?dt,
    fun h => ?st, fun h => ?i, fun h => ?fb, fun h => ?wait, fun h => ?mem, fun h => ?draws⟩
  case' v => have row : Part.v ∈ i.writes := Decidable.byContradiction fun hp => h (effect.v_eq hp)
  case' mem => have row : Part.mem ∈ i.writes := Decidable.byContradiction fun hp => h (effect.mem_eq hp)
  case' fault => have row := effect.kinds_ne_nil fault h
  case' pc => have row := effect.mem_of_not_same (p := .pc) (by decide) h
  case' stack => have row := effect.mem_of_not_same (p := .stack) (by decide) h
  case' sp => have row := effect.mem_of_not_same (p := .sp) (by decide) h
  case' dt => have row := effect.mem_of_not_same (p := .dt) (by decide) h
  case' st => have row := effect.mem_of_not_same (p := .st) (by decide) h
  case' i => have row := effect.mem_of_not_same (p := .i) (by decide) h
  case' fb => have row := effect.mem_of_not_same (p := .fb) (by decide) h
  case' wait => have row := effect.mem_of_not_same (p := .wait) (by decide) h
  case' draws => have row := effect.mem_of_not_same (p := .draws) (by decide) h
  all_goals cases i <;> simp [Instr.writes, Instr.faultKinds] at row ⊢

/-- Settles O54: the instructions that write V; those that write one named register write VF only as that
one. -/
theorem onlyFlagInstructionsWriteVF : Obligations.OnlyFlagInstructionsWriteVF := by
  intro i s t he h
  have written : Part.v ∈ i.writes :=
    Decidable.byContradiction fun hp => h ((effect_of_exec he).same hp (by decide) 15)
  cases i with
  | loadImm x kk => cases he; obtain rfl := getV_15_setV_of_ne h; simp
  | addImm x kk => cases he; obtain rfl := getV_15_setV_of_ne h; simp
  | random x kk => cases he; obtain rfl := getV_15_setV_of_ne (s := s.takeRandom) h; simp
  | move x y => cases he; obtain rfl := getV_15_setV_of_ne h; simp
  | loadDelay x => cases he; obtain rfl := getV_15_setV_of_ne h; simp
  | loadRegisters x => obtain rfl := getV_15_loadRegisters_of_ne he h; simp
  | _ => simp [Instr.writes] at written ⊢

end Sys2Proof.Machine
end

section
/-! PROOF. Obligations O6 to O11, O48 and O56: the cycle (40_cycle.md R121 to R125, 20_memory.md R67, R73,
60_exceptions.md R311). A step whose call is a cycle is the cycle of the state that has taken it; what the
cycle is, is said once for each of its cases, as an equation under the condition of the case. -/

namespace Sys2Proof.Machine

/-! ### The cycle, case by case -/

section cycle
variable {s : State}

theorem step_of_cycle (h : s.nextCall = .cycle) : step s = s.takeCall.cycle := by
  rw [step_eq, h, State.serve]

/-- A halted engine does nothing (R311). -/
theorem State.cycle_of_fault_ne_none (h : s.fault ≠ none) : s.cycle = .next s := by
  have hc : s.condition ≠ .running := fun e => h (s.condition_running_iff.mp e).1
  obtain ⟨_, he⟩ | ⟨running, _⟩ | ⟨running, _⟩ | ⟨running, _⟩ := s.cycle_cases
  · exact he
  all_goals exact absurd running hc

variable (hf : s.fault = none) (hw : s.wait = .running)
include hf hw

theorem State.cycle_of_beyond (hp : 0x0FFF ≤ s.pc.toNat) :
    s.cycle = .next (s.raiseAt .fetchOutOfRange (.value s.pc.toNat) s.pc) := by
  have running := s.condition_running_iff.mpr ⟨hf, hw⟩
  obtain ⟨idle, _⟩ | ⟨_, _, he⟩ | ⟨_, within, _⟩ | ⟨_, within, _⟩ := s.cycle_cases
  · exact absurd running idle
  · exact he
  all_goals omega

theorem State.cycle_of_undecodable (hp : s.pc.toNat ≤ 0x0FFE)
    (hd : decodeWord (s.wordAt s.pc.toNat) = .decodeFailure) : s.cycle =
    .next (s.raiseAt .decodeError (.failingWord (s.wordAt s.pc.toNat) s.pc) s.pc) := by
  have running := s.condition_running_iff.mpr ⟨hf, hw⟩
  obtain ⟨idle, _⟩ | ⟨_, beyond, _⟩ | ⟨_, _, _, he⟩ | ⟨_, _, i, decodes, _⟩ := s.cycle_cases
  · exact absurd running idle
  · omega
  · exact he
  · cases hd.symm.trans decodes

theorem State.cycle_of_decoded {i : Instr} (hp : s.pc.toNat ≤ 0x0FFE)
    (hd : decodeWord (s.wordAt s.pc.toNat) = .instr i) : s.cycle = exec i s.advancePc := by
  have running := s.condition_running_iff.mpr ⟨hf, hw⟩
  obtain ⟨idle, _⟩ | ⟨_, beyond, _⟩ | ⟨_, _, fails, _⟩ | ⟨_, _, i', decodes, he⟩ := s.cycle_cases
  · exact absurd running idle
  · omega
  · cases hd.symm.trans fails
  · cases hd.symm.trans decodes
    exact he

end cycle

/-! ### Bytes, words and faults -/

theorem decodeWord_of_decode_pair {hi lo : Byte} {i : Instr} (h : decode [hi, lo] = .ok (i, [])) :
    decodeWord (wordOfBytes hi lo) = .instr i := by
  rw [decode_pair] at h
  cases hd : decodeWord (wordOfBytes hi lo) <;> rw [hd] at h <;> cases h
  rfl

/-- A number that is high * 256 + low is the word in memory (R66). -/
theorem State.wordAt_eq_of_toNat {s : State} {a : Nat} {w : Word}
    (h : w.toNat = (s.readByte a).toNat * 256 + (s.readByte (a + 1)).toNat) : s.wordAt a = w :=
  BitVec.eq_of_toNat_eq (by rw [State.wordAt, toNat_wordOfBytes, h])

/-- No instruction raises the fetch's fault (R312). -/
theorem fetchOutOfRange_notMem_faultKinds (i : Instr) : FaultKind.fetchOutOfRange ∉ i.faultKinds := by
  cases i <;> simp [Instr.faultKinds]

/-- The cycle answers a next state, and below 0x0FFF without a fetch fault of its own. -/
theorem State.cycle_answers (s : State) : ∃ t, s.cycle = .next t ∧
    (s.fault = none → s.pc.toNat ≤ 0x0FFE → ∀ r, t.fault = some r → r.kind ≠ .fetchOutOfRange) := by
  obtain ⟨_, he⟩ | ⟨_, beyond, he⟩ | ⟨_, _, _, he⟩ | ⟨_, _, i, _, he⟩ := s.cycle_cases
  · exact ⟨_, he, fun hf _ r hr => by simp [hf] at hr⟩
  · exact ⟨_, he, fun _ within => by omega⟩
  · refine ⟨_, he, fun _ _ r hr => ?_⟩
    cases hr
    exact FaultKind.noConfusion
  · obtain ⟨t, answer, effect⟩ := exec_effect s.advancePc i
    refine ⟨t, he.trans answer, fun hf _ r hr => ?_⟩
    obtain same | ⟨r', hk, _, rfl⟩ := effect.fault_cases (fault_notMem_writes i)
    · cases hf.symm.trans (same.symm.trans hr)
    · cases hr
      exact fun e => fetchOutOfRange_notMem_faultKinds i (e ▸ hk)

/-! ### The obligations -/

/-- Settles O6. -/
theorem stepRunsTheDecodedInstruction : Obligations.StepRunsTheDecodedInstruction := by
  intro s i hc hf hw hp hd
  have decodes := decodeWord_of_decode_pair hd
  refine ⟨(decodeWord_encodesTo _ i decodes).2, ?_⟩
  rw [step_of_cycle hc]
  exact State.cycle_of_decoded (s := s.takeCall) hf hw hp decodes

/-- Settles O7: the first case of the cycle, and for the other cases their faults. -/
theorem fetchBeyondMemoryFaults : Obligations.FetchBeyondMemoryFaults := by
  intro s hc hf hw
  rw [step_of_cycle hc]
  refine ⟨fun hp => ⟨_, State.cycle_of_beyond (s := s.takeCall) hf hw hp, s.takeCall.raiseAt_raises _ _ _⟩,
    fun hp => ?_⟩
  obtain ⟨t, answer, others⟩ := s.takeCall.cycle_answers
  exact ⟨t, answer, others hf hp⟩

/-- Settles O8: the word of the fault record is the word that was fetched. -/
theorem undecodableWordFaults : Obligations.UndecodableWordFaults := by
  intro s hc hf hw hp w hbytes hd
  obtain rfl := State.wordAt_eq_of_toNat hbytes
  have word : s.takeCall.faultWord s.pc = s.wordAt s.pc.toNat := if_pos hp
  rw [step_of_cycle hc, State.cycle_of_undecodable (s := s.takeCall) hf hw hp hd, State.raiseAt,
    State.takeCall_pc, word]
  rfl

/-- Settles O9. -/
theorem suspendedCycleChangesNothing : Obligations.SuspendedCycleChangesNothing := by
  intro s _ hw
  have idle (hc : s.nextCall = .cycle) : step s = .next s.takeCall :=
    (step_of_cycle hc).trans (State.cycle_of_wait_ne_running (s := s.takeCall) hw)
  refine ⟨idle, fun t ht running hc => hw ?_⟩
  cases (idle hc).symm.trans ht
  exact running

/-- Settles O10: a cycle when halted, and the check for Halted that the other calls stand behind. -/
theorem haltedIsTerminalButForALoad : Obligations.HaltedIsTerminalButForALoad := by
  intro s r hf hload
  have halted : s.takeCall.fault = some r := hf
  rw [step_eq]
  cases hc : s.nextCall with
  | cycle => exact State.cycle_of_fault_ne_none (by simp [hf])
  | frameTick => exact congrArg _ (State.unlessHalted_halted _ _ halted)
  | keyPress k => exact congrArg _ (State.unlessHalted_halted _ _ halted)
  | keyRelease k => exact congrArg _ (State.unlessHalted_halted _ _ halted)
  | loadProgram image => exact absurd hc (hload image)

/-- Settles O11: only the cycle, which executes instructions, is not a next state by definition. -/
theorem nothingEndsTheMachine : Obligations.NothingEndsTheMachine := by
  refine ⟨fun i s => (exec_effect s i).imp fun _ => And.left, fun s => ?_⟩
  rw [step_eq]
  cases s.nextCall with
  | cycle => exact s.takeCall.cycle_answers.imp fun _ => And.left
  | frameTick | keyPress | keyRelease | loadProgram => exact ⟨_, rfl⟩

/-- Settles O48: the word F090, the first of glyph 0, is one that fails to decode (R95). -/
theorem firstCycleBeforeALoadHalts : Obligations.FirstCycleBeforeALoadHalts :=
  ⟨_, undecodableWordFaults State.reset rfl rfl rfl (by decide) 0xF090#16 (by decide) (by decide), rfl,
    unchanged_but_fault State.reset _⟩

/-- Settles O56: the store leaves pc, WAIT and FAULT and puts V[0] and V[1] at pc, where O6 fetches them. -/
theorem storedCodeIsFetchedNext : Obligations.StoredCodeIsFetchedNext := by
  intro x i s t hx hcalls hf hw hr hpc he hd
  have stored : s.storeBlock s.i.toNat (x.val + 1) = t :=
    Host.Outcome.next.inj ((exec_of_inRange (exec_storeRegisters s x) hr).symm.trans he)
  have same : Unchanged s t [.mem, .i] := stored ▸ unchanged_storeBlock s _ _
  have pc : t.pc = s.pc := same .pc (by decide)
  have calls : t.calls = [] := Eq.trans (same .calls (by decide)) hcalls
  have fault : t.fault = none := Eq.trans (same .fault (by decide)) hf
  have wait : t.wait = .running := Eq.trans (same .wait (by decide)) hw
  have byte0 : t.readByte t.pc.toNat = s.getV 0 := by
    rw [pc, hpc, ← stored]
    exact s.readByte_storeBlock_register _ _ 0 (Nat.succ_pos _)
  have byte1 : t.readByte (t.pc.toNat + 1) = s.getV 1 := by
    rw [pc, hpc, ← stored]
    exact s.readByte_storeBlock_register _ _ 1 (Nat.succ_lt_succ hx)
  rw [← byte0, ← byte1] at hd
  obtain ⟨_, runs⟩ := stepRunsTheDecodedInstruction t i (by rw [State.nextCall, calls]; rfl) fault wait
    (by rw [pc]; omega) hd
  rwa [calls, List.tail_nil, ← calls] at runs

end Sys2Proof.Machine
end

section
/-! PROOF. Obligations O38, O40 to O42, O44 to O46 and O57: the host calls other than the cycle (40_cycle.md
R131, R135, R136, 45_keys_timers.md R282, R286, 70_reset_and_hazards.md R342, R343). What a tick, a key press
and a key release are on a core that is not halted is said once for each case of WAIT; a step is then the
call on the state that has taken it. -/

namespace Sys2Proof.Machine

/-! ### The tick, the key press and the key release, case by case -/

section calls
variable {s : State} {k x : Hex} {l : Option Hex}

theorem unchanged_but_calls (s : State) (calls : List HostCall) :
    Unchanged s { s with calls := calls } [.calls] := by
  intro p hp
  cases p with
  | calls => simp at hp
  | v | mem => exact fun _ => rfl
  | cfg | i | pc | stack | sp | dt | st | keys | fb | wait | fault | draws => rfl

theorem unchanged_but_keys (s : State) (keys : Vector Bool 16) :
    Unchanged s { s with keys := keys } [.keys] := by
  intro p hp
  cases p with
  | keys => simp at hp
  | v | mem => exact fun _ => rfl
  | cfg | i | pc | stack | sp | dt | st | fb | wait | fault | draws | calls => rfl

theorem getElem_keys_set (keys : Vector Bool 16) (k j : Hex) (b : Bool) :
    (keys.set k b)[j] = if j = k then b else keys[j] := by
  rw [Fin.getElem_fin, Fin.getElem_fin, Vector.getElem_set]
  simp only [Fin.val_inj, eq_comm]

variable (hf : s.fault = none)
include hf

theorem State.frameTick_of_notPending (hw : ∀ x y n, s.wait ≠ .waitingForDisplayRefresh x y n) :
    s.frameTick = s.decrementTimers := by
  obtain ⟨x, y, n, pending, _⟩ | ⟨_, he⟩ := s.decrementTimers.finishDraw_cases
  · exact absurd pending (hw x y n)
  · rw [State.frameTick, State.unlessHalted_working s _ hf, he]

theorem State.keyPress_of_waiting (hw : s.wait = .waitingForKey x l) : s.keyPress k =
    ({ s with keys := s.keys.set k true }.setV x (hexToByte k)).setWait (.waitingForKey x (some k)) := by
  rw [State.keyPress, State.unlessHalted_working s _ hf, State.latchKey, hw]

theorem State.keyPress_of_notWaiting (hw : ∀ x l, s.wait ≠ .waitingForKey x l) :
    s.keyPress k = { s with keys := s.keys.set k true } := by
  obtain ⟨x, l, waiting, _⟩ | ⟨_, he⟩ := State.latchKey_cases { s with keys := s.keys.set k true } k
  · exact absurd waiting (hw x l)
  · rw [State.keyPress, State.unlessHalted_working s _ hf, he]

theorem State.keyRelease_of_latched (hw : s.wait = .waitingForKey x (some k)) :
    s.keyRelease k = { s with keys := s.keys.set k false }.setWait .running := by
  rw [State.keyRelease, State.unlessHalted_working s _ hf, State.endKeyWait, hw]
  exact if_pos rfl

theorem State.keyRelease_of_notLatched (hw : ∀ x, s.wait ≠ .waitingForKey x (some k)) :
    s.keyRelease k = { s with keys := s.keys.set k false } := by
  obtain ⟨x, latched, _⟩ | ⟨_, he⟩ := State.endKeyWait_cases { s with keys := s.keys.set k false } k
  · exact absurd latched (hw x)
  · rw [State.keyRelease, State.unlessHalted_working s _ hf, he]

end calls

/-! ### A key wait: what keeps it and what ends it -/

section keyWait
variable {s : State} {x : Hex} {l : Option Hex} (k : Hex)
  (hf : s.fault = none) (hw : s.wait = .waitingForKey x l)
include hf hw

/-- A press latches its key, whatever was latched before, into V[x]; the wait goes on (R135). -/
theorem State.keyPress_latches : (s.keyPress k).wait = .waitingForKey x (some k) ∧
    (s.keyPress k).fault = none ∧ (s.keyPress k).pc = s.pc ∧ ((s.keyPress k).getV x).toNat = k.val := by
  rw [State.keyPress_of_waiting hf hw]
  refine ⟨rfl, hf, rfl, ?_⟩
  rw [State.getV_setWait, State.getV_setV_self, toNat_hexToByte]

/-- The release of the latched key ends the wait and leaves the registers and pc (R136). -/
theorem State.keyRelease_ends (hl : l = some k) : (s.keyRelease k).wait = .running ∧
    (s.keyRelease k).pc = s.pc ∧ ∀ j, (s.keyRelease k).getV j = s.getV j := by
  rw [State.keyRelease_of_latched hf (hl ▸ hw)]
  exact ⟨rfl, rfl, fun _ => rfl⟩

/-- The release of any other key leaves the wait (R136). -/
theorem State.keyRelease_keepsWaiting (hl : l ≠ some k) :
    (s.keyRelease k).wait = .waitingForKey x l ∧ (s.keyRelease k).fault = none := by
  have other (y : Hex) : s.wait ≠ .waitingForKey y (some k) := fun e =>
    hl (Wait.waitingForKey.inj (hw.symm.trans e)).2
  rw [State.keyRelease_of_notLatched hf other]
  exact ⟨hw, hf⟩

omit k in
/-- A tick only takes the timers down (R132). -/
theorem State.frameTick_keepsWaiting : s.frameTick.wait = .waitingForKey x l := by
  rw [State.frameTick_of_notPending hf (by simp [hw])]
  exact hw

end keyWait

/-! ### The timers under a tick (R286), and a run of ticks -/

theorem State.finishDraw_timers (s : State) :
    s.finishDraw.dt = s.dt ∧ s.finishDraw.st = s.st ∧ s.finishDraw.calls = s.calls := by
  obtain ⟨_, _, _, _, ⟨_, e⟩ | ⟨_, e⟩⟩ | ⟨_, e⟩ := s.finishDraw_cases <;> rw [e] <;> exact ⟨rfl, rfl, rfl⟩

theorem State.decrementTimers_timers (s : State) :
    s.decrementTimers.dt.toNat = s.dt.toNat - 1 ∧ s.decrementTimers.st.toNat = s.st.toNat - 1 :=
  ⟨toNat_tickTimer _, toNat_tickTimer _⟩

theorem State.frameTick_timers {s : State} (hf : s.fault = none) :
    s.frameTick.dt.toNat = s.dt.toNat - 1 ∧ s.frameTick.st.toNat = s.st.toNat - 1 ∧
      s.frameTick.calls = s.calls := by
  obtain ⟨dt, st, calls⟩ := s.decrementTimers.finishDraw_timers
  obtain ⟨dtDown, stDown⟩ := s.decrementTimers_timers
  rw [State.frameTick, State.unlessHalted_working s _ hf, dt, st, calls]
  exact ⟨dtDown, stDown, rfl⟩

/-- A run whose first step answers a next state goes on from there. -/
theorem run_succ_of_step {n : Nat} {s t : State} (h : step s = .next t) :
    Host.Core.run core (n + 1) s = Host.Core.run core n t := by
  have hstep : core.step s = .next t := h
  simp only [Host.Core.run, hstep]

/-! ### The program load (R342, R343) -/

section load
variable (s : State) {image : List Byte}

theorem State.loadProgram_of_fits (h : image.length ≤ maxProgram) : s.loadProgram image =
    { State.construct s.cfg with
      mem := Memory.load s.mem image, pc := BitVec.ofNat 16 programBase, draws := s.draws,
      calls := s.calls } := if_neg (Nat.not_lt.mpr h)

theorem State.loadProgram_of_tooLarge (h : maxProgram < image.length) :
    s.loadProgram image = s.raise .programTooLarge (.value image.length) 0 0 := if_pos h

theorem State.readByte_loadProgram (h : image.length ≤ maxProgram) (a : Nat) :
    (s.loadProgram image).readByte a = if a < 80 then s.readByte a
      else if programBase ≤ a then image[a - programBase]?.getD 0 else 0 := by
  rw [s.loadProgram_of_fits h]
  exact Memory.read_load

end load

/-! ### The obligations -/

/-- Settles O40. -/
theorem frameTickCountsTheTimersDown : Obligations.FrameTickCountsTheTimersDown := by
  intro s hc hf
  obtain ⟨dt, st, calls⟩ := State.frameTick_timers (s := s.takeCall) hf
  refine ⟨s.takeCall.frameTick, by rw [step_eq, hc, State.serve], dt, st, calls, fun hw => ?_⟩
  rw [State.frameTick_of_notPending (s := s.takeCall) hf hw]
  exact ((unchanged_but_calls s _).trans (unchanged_decrementTimers _)).mono (by decide)

/-- Settles O41, by induction on the number of ticks: each takes its call and the timers down by one. -/
theorem timersReachZeroAndStay : Obligations.TimersReachZeroAndStay := by
  intro n
  induction n with
  | zero => exact fun s _ _ => ⟨_, rfl, rfl, rfl, (unchanged_but_calls s []).mono (by decide), rfl⟩
  | succ n ih =>
    intro s hf hw
    obtain ⟨t, run, dt, st, same, calls⟩ := ih s.decrementTimers hf hw
    obtain ⟨dt1, st1⟩ := s.decrementTimers_timers
    have tick : step { s with calls := List.replicate (n + 1) .frameTick } =
        .next { s.decrementTimers with calls := List.replicate n .frameTick } :=
      congrArg _ (State.frameTick_of_notPending (s := { s with calls := List.replicate n .frameTick }) hf hw)
    refine ⟨t, ?_, by omega, by omega, ((unchanged_decrementTimers s).trans same).mono (by decide), calls⟩
    exact (run_succ_of_step tick).trans run

/-- Settles O42: the tick of a pending draw that fits, and of one that overruns memory. -/
theorem frameTickRunsThePendingDraw : Obligations.FrameTickRunsThePendingDraw := by
  intro x y n s hc hf hw
  have pending : s.takeCall.wait = .waitingForDisplayRefresh x y n := hw
  have tick : step s = .next s.takeCall.frameTick := by rw [step_eq, hc, State.serve]
  obtain ⟨dt, st⟩ := s.takeCall.decrementTimers_timers
  constructor
  case left =>
    intro hr
    rw [State.frameTick_of_pendingFits pending hf hr] at tick
    exact ⟨_, tick, rfl, s.takeCall.decrementTimers.drawn_paint x y n, dt, st, rfl,
      ((unchanged_but_calls s _).trans (unchanged_tickedPaint _ x y n)).mono (by decide)⟩
  case right =>
    intro hn hr
    exact ⟨_, s.takeCall.decrementTimers, tick, dt, st, rfl,
      ((unchanged_but_calls s _).trans (unchanged_decrementTimers _)).mono (by decide),
      State.frameTick_raises_of_pendingOverruns pending hf hn hr⟩

/-- Settles O44. -/
theorem keyPressLatches : Obligations.KeyPressLatches := by
  intro k s hc
  have press : step s = .next (s.takeCall.keyPress k) := by rw [step_eq, hc, State.serve]
  refine ⟨fun ⟨r, hr⟩ => press.trans (congrArg _ (State.unlessHalted_halted _ _ hr)), fun hf => ?_⟩
  have entered := getElem_keys_set s.keys k
  refine ⟨_, press, ?_⟩
  by_cases hw : ∃ x l, s.wait = .waitingForKey x l
  case pos =>
    obtain ⟨x, l, hw⟩ := hw
    obtain ⟨_, _, _, latched⟩ := State.keyPress_latches (s := s.takeCall) k hf hw
    rw [State.keyPress_of_waiting (s := s.takeCall) hf hw] at latched ⊢
    refine ⟨rfl, fun j => entered j true, fun x' l' hw' => ?_, fun other => absurd hw (other x l)⟩
    cases hw.symm.trans hw'
    exact ⟨rfl, latched, registersUnchanged_setV s x _,
      (((unchanged_but_calls s _).trans (unchanged_but_keys _ _)).trans
        ((unchanged_setV _ x _).trans (unchanged_setWait _ _))).mono (by decide)⟩
  case neg =>
    have hw' : ∀ x l, s.wait ≠ .waitingForKey x l := fun x l e => hw ⟨x, l, e⟩
    rw [State.keyPress_of_notWaiting (s := s.takeCall) hf hw']
    exact ⟨rfl, fun j => entered j true, fun x l e => absurd e (hw' x l), fun _ =>
      ((unchanged_but_calls s _).trans (unchanged_but_keys _ _)).mono (by decide)⟩

/-- Settles O45. -/
theorem keyReleaseEndsTheWaitOfTheLatchedKey : Obligations.KeyReleaseEndsTheWaitOfTheLatchedKey := by
  intro k s hc
  have release : step s = .next (s.takeCall.keyRelease k) := by rw [step_eq, hc, State.serve]
  refine ⟨fun ⟨r, hr⟩ => release.trans (congrArg _ (State.unlessHalted_halted _ _ hr)), fun hf => ?_⟩
  have left (j : Hex) := getElem_keys_set s.keys k j false
  have released := (unchanged_but_calls s s.calls.tail).trans (unchanged_but_keys _ (s.keys.set k false))
  refine ⟨_, release, ?_⟩
  by_cases hw : ∃ x, s.wait = .waitingForKey x (some k)
  case pos =>
    obtain ⟨x, hw⟩ := hw
    rw [State.keyRelease_of_latched (s := s.takeCall) hf hw]
    exact ⟨rfl, left, fun _ _ => ⟨rfl, (released.trans (unchanged_setWait _ _)).mono (by decide)⟩,
      fun other => absurd hw (other x)⟩
  case neg =>
    have other : ∀ x, s.wait ≠ .waitingForKey x (some k) := fun x e => hw ⟨x, e⟩
    rw [State.keyRelease_of_notLatched (s := s.takeCall) hf other]
    exact ⟨rfl, left, fun x e => absurd e (other x), fun _ => released.mono (by decide)⟩

/-- Settles O46: memory by the four ranges of addresses; the rest is what the core is constructed with. -/
theorem programLoadResets : Obligations.ProgramLoadResets := by
  intro image s hc
  have load : step s = .next (s.takeCall.loadProgram image) := by rw [step_eq, hc, State.serve]
  constructor
  case right => exact fun h => load.trans (congrArg _ (s.takeCall.loadProgram_of_tooLarge h))
  case left =>
    intro h
    have reads := s.takeCall.readByte_loadProgram h
    refine ⟨_, load, fun a ha => (reads a).trans (if_pos ha), fun a h80 h200 => ?below, fun k hk => ?program,
      fun a hend _ => ?above, ?rest⟩
    case below => rw [reads, if_neg (by omega), if_neg (by simp only [programBase]; omega)]
    case program =>
      rw [reads, if_neg (by omega), if_pos (by simp only [programBase]; omega), Nat.add_sub_cancel_left,
        List.getElem?_eq_getElem hk, Option.getD_some]
    case above =>
      rw [reads, if_neg (by omega), if_pos (by simp only [programBase]; omega),
        List.getElem?_eq_none (by simp only [programBase]; omega), Option.getD_none]
    case rest =>
      rw [s.takeCall.loadProgram_of_fits h]
      exact ⟨fun k => Vector.getElem_replicate k.isLt, rfl, rfl, fun k => Vector.getElem_replicate k.isLt,
        rfl, rfl, rfl, fun k => Vector.getElem_replicate k.isLt, Framebuffer.pixel_blank, rfl, rfl, rfl,
        rfl, rfl, rfl⟩

/-- Settles O38: t is the state in the wait with nothing latched; then one and two presses. -/
theorem keyWaitEndsOnReleaseOfTheLatchedKey : Obligations.KeyWaitEndsOnReleaseOfTheLatchedKey := by
  intro x k j s t hf he
  have ht : s.setWait (.waitingForKey x none) = t := Host.Outcome.next.inj he
  have waiting : t.wait = .waitingForKey x none := ht ▸ rfl
  have fault : t.fault = none := ht ▸ hf
  have frozen : t.pc = s.pc := ht ▸ rfl
  obtain ⟨waits, faultless⟩ := State.keyRelease_keepsWaiting j fault waiting (Option.some_ne_none j).symm
  obtain ⟨waitsK, faultK, pcK, vK⟩ := State.keyPress_latches k fault waiting
  obtain ⟨waitsJ, faultJ, pcJ, vJ⟩ := State.keyPress_latches j faultK waitsK
  obtain ⟨endsK, endPcK, endVK⟩ := State.keyRelease_ends k faultK waitsK rfl
  obtain ⟨endsJ, endPcJ, endVJ⟩ := State.keyRelease_ends j faultJ waitsJ rfl
  refine ⟨State.cycle_of_wait_ne_running (by simp [waiting]), State.frameTick_keepsWaiting fault waiting,
    waits, (State.keyPress_latches k faultless waits).1, vK,
    State.cycle_of_wait_ne_running (by simp [waitsK]), State.frameTick_keepsWaiting faultK waitsK,
    fun hjk => (State.keyRelease_keepsWaiting j faultK waitsK (by simpa using Ne.symm hjk)).1, endsK,
    by rw [endVK, vK], endPcK.trans (pcK.trans frozen), waitsJ,
    fun hjk => (State.keyRelease_keepsWaiting k faultJ waitsJ (by simpa using hjk)).1, endsJ,
    by rw [endVJ, vJ], endPcJ.trans (pcJ.trans (pcK.trans frozen))⟩

/-- Settles O57: a load, a halted core, and one case for each other call on a core that is not halted. -/
theorem keyWaitIsEndedByNothingElse : Obligations.KeyWaitIsEndedByNothingElse := by
  intro x l s t hw ht
  have waiting : s.takeCall.wait = .waitingForKey x l := hw
  by_cases hload : ∃ image, s.nextCall = .loadProgram image
  case pos =>
    obtain ⟨image, hc⟩ := hload
    by_cases hl : image.length ≤ 3584
    · exact .inr (.inl ⟨image, hc, hl⟩)
    · rw [step_eq, hc, State.serve, State.loadProgram_of_tooLarge _ (Nat.not_le.mp hl)] at ht
      cases ht
      exact .inr (.inr ⟨fun _ k e => HostCall.noConfusion (hc.symm.trans e), fun _ => hw⟩)
  case neg =>
    cases hf : s.fault with
    | some r =>
      cases (haltedIsTerminalButForALoad s r hf fun image e => hload ⟨image, e⟩).symm.trans ht
      exact .inr (.inr ⟨(nomatch ·), fun _ => hw⟩)
    | none =>
      have fault : s.takeCall.fault = none := hf
      rw [step_eq] at ht
      cases hc : s.nextCall <;> rw [hc, State.serve] at ht
      case loadProgram image => exact absurd ⟨image, hc⟩ hload
      case cycle =>
        cases (State.cycle_of_wait_ne_running (s := s.takeCall) (by simp [hw])).symm.trans ht
        exact .inr (.inr ⟨fun _ k e => HostCall.noConfusion e, fun _ => hw⟩)
      case frameTick =>
        cases ht
        exact .inr (.inr ⟨fun _ k e => HostCall.noConfusion e, fun _ =>
          State.frameTick_keepsWaiting fault waiting⟩)
      case keyPress k =>
        cases ht
        refine .inr (.inr ⟨fun _ j e => ?_, fun other => ?_⟩)
        · cases e
          exact (State.keyPress_latches k fault waiting).1
        · exact (other.elim (absurd rfl) fun no => absurd rfl (no k))
      case keyRelease k =>
        cases ht
        by_cases hl : l = some k
        · exact .inl ⟨k, rfl, hl, rfl⟩
        · exact .inr (.inr ⟨fun _ k e => HostCall.noConfusion e, fun _ =>
            (State.keyRelease_keepsWaiting k fault waiting hl).1⟩)

end Sys2Proof.Machine
end

section
/-! PROOF. Obligations O49, O50 and O58: the invariant holds after reset and every step keeps it (40_cycle.md
R127, 10_state.md R33, 20_memory.md R60, R74, 44_display.md R257); and the parameters at reset. For an
instruction, each clause of the invariant is a lemma of its own, about the few instructions whose row of
`Instr.writes` has the piece that the clause is about; for a host call, the cases of WAIT decide. -/

namespace Sys2Proof.Machine

/-! ### What the invariant is read from -/

section invariant
variable {s t : State}

theorem Wait.running_or_waiting (w : Wait) : w = .running ∨ (∃ x l, w = .waitingForKey x l) ∨
    ∃ x y n, w = .waitingForDisplayRefresh x y n := by
  cases w <;> simp

theorem State.suspensionOk_of_running (h : s.wait = .running) : s.SuspensionOk := by
  rw [State.SuspensionOk, h]
  trivial

theorem State.suspensionOk_waitingForKey {x : Hex} {l : Option Hex} (h : s.wait = .waitingForKey x l) :
    s.SuspensionOk ↔ 2 ≤ s.pc.toNat ∧ s.pc.toNat ≤ 0x1000 ∧
      s.wordAt (s.pc.toNat - 2) = encodeWord (.waitKey x) ∧
      ∀ k, l = some k → s.getV x = BitVec.ofNat 8 k.val ∧ s.keys[k] = true := by
  rw [State.SuspensionOk, h]

theorem State.suspensionOk_waitingForDisplayRefresh {x y n : Hex}
    (h : s.wait = .waitingForDisplayRefresh x y n) :
    s.SuspensionOk ↔ 2 ≤ s.pc.toNat ∧ s.pc.toNat ≤ 0x1000 ∧
      s.wordAt (s.pc.toNat - 2) = encodeWord (.draw x y n) ∧ s.cfg.quirks.displayWait = true := by
  rw [State.SuspensionOk, h]

/-- V, KEYS and WAIT are in no clause but the suspension's, and six pieces in none. -/
theorem State.Inv.of_unchanged (h : s.Inv) (hs : t.SuspensionOk) (hm : t.mem = s.mem)
    (hu : Unchanged s t [.v, .keys, .wait, .i, .sp, .dt, .st, .fb, .draws, .calls]) : t.Inv := by
  have cfg : t.cfg = s.cfg := hu .cfg (by decide)
  have pc : t.pc = s.pc := hu .pc (by decide)
  have stack : t.stack = s.stack := hu .stack (by decide)
  have fault : t.fault = s.fault := hu .fault (by decide)
  exact ⟨by rw [cfg, hm]; exact h.memory, cfg ▸ h.glyphs, pc ▸ h.pc, stack ▸ h.stack, hs, fault ▸ h.fault⟩

theorem State.Inv.raise (h : s.Inv) {kind : FaultKind} {info : FaultInfo} {addr word : Word}
    (hk : kind ≠ .drawWhilePending) : (s.raise kind info addr word).Inv :=
  ⟨h.memory, h.glyphs, h.pc, h.stack, h.suspension, fun _ hr => Option.some.inj hr ▸ hk⟩

theorem State.Inv.takeCall (h : s.Inv) : s.takeCall.Inv :=
  ⟨h.memory, h.glyphs, h.pc, h.stack, h.suspension, h.fault⟩

theorem State.Inv.decrementTimers (h : s.Inv) : s.decrementTimers.Inv :=
  ⟨h.memory, h.glyphs, h.pc, h.stack, h.suspension, h.fault⟩

end invariant

/-! ### The instructions keep each clause -/

/-- What DRW does in a Running engine: it defers the draw, draws, or raises MemOutOfRange (R252). -/
theorem exec_draw_of_running {s t : State} {x y n : Hex} (he : exec (.draw x y n) s = .next t)
    (hw : s.wait = .running) :
    (s.cfg.quirks.displayWait = true ∧ t = s.setWait (.waitingForDisplayRefresh x y n)) ∨
      t = s.paint x y n ∨ t = s.raiseExec .memOutOfRange (.value (s.i.toNat + n.val - 1)) := by
  obtain ⟨⟨a, b, c, pending⟩, _⟩ | ⟨_, hq, e⟩ | ⟨_, _, e⟩ := execDraw_cases x y n s
  · cases hw.symm.trans pending
  · cases e.symm.trans he
    exact .inl ⟨hq, rfl⟩
  · cases e.symm.trans he
    exact .inr ((s.withinRange_cases n.val _).imp And.right And.right)

section instructions
variable {i : Instr} {s t : State} (he : exec i s = .next t)
include he

/-- Memory stays canonical: only the two stores write it, inside memory (R220). -/
theorem exec_memory_wf (h : Memory.Wf s.cfg.glyphs s.mem) : Memory.Wf t.cfg.glyphs t.mem := by
  have effect := effect_of_exec he
  have cfg : t.cfg = s.cfg := effect.same (notMem_writes i).2.1 (by decide)
  rw [cfg]
  by_cases hm : Part.mem ∈ i.writes
  case neg => rwa [effect.mem_eq hm]
  case pos =>
    cases i <;> simp [Instr.writes] at hm
    case storeBcd x =>
      rw [exec_storeBcd] at he
      cases he
      obtain ⟨hr, e⟩ | ⟨_, e⟩ := s.withinRange_cases (2 + 1) (fun t => t.storeDigits (t.getV x)) <;> rw [e]
      · exact s.wf_storeDigits _ h hr
      · exact h
    case storeRegisters x =>
      rw [exec_storeRegisters] at he
      cases he
      obtain ⟨hr, e⟩ | ⟨_, e⟩ :=
        s.withinRange_cases (x.val + 1) (fun t => t.storeBlock t.i.toNat (x.val + 1)) <;> rw [e]
      · exact s.wf_storeBlock _ _ h (by have := s.indexRangeOk_iff.mp hr; omega)
      · exact h

/-- Where control goes: a stack slot, an address, an address plus a byte, or on by 0 or 2 (R127). -/
theorem exec_pc_le (hpc : s.pc.toNat ≤ 0x1000) (hstack : ∀ k : Hex, s.stack[k].toNat ≤ 0x1000) :
    t.pc.toNat ≤ 0x10FE := by
  by_cases hm : Part.pc ∈ i.writes
  case neg =>
    have pc : t.pc = s.pc := (effect_of_exec he).same hm (by decide)
    rw [pc]
    omega
  case pos =>
    cases i <;> simp [Instr.writes] at hm <;> cases he
    case ret =>
      by_cases h : 0 < s.sp.val
      · rw [s.popThenJump_entry h]
        exact Nat.le_trans (hstack ⟨s.sp.val - 1, by have := s.sp.isLt; omega⟩) (by decide)
      · rw [s.popThenJump_empty h]
        exact Nat.le_trans hpc (by decide)
    case jump nnn => rw [State.setPc_pc, toNat_zext16]; have := nnn.isLt; omega
    case call nnn =>
      by_cases h : s.sp.val < 16
      · rw [s.pushThenJump_room _ h, toNat_zext16]
        have := nnn.isLt
        omega
      · rw [s.pushThenJump_full _ h]
        exact Nat.le_trans hpc (by decide)
    case jumpOffset nnn =>
      rw [State.setPc_pc, toNat_zext16_add_byteToWord]
      have := nnn.isLt
      have := (s.getV (s.jumpRegister nnn)).isLt
      omega
    all_goals
      rw [State.skipIf_eq, State.setPc_pc]
      split <;> bv_omega

/-- Only CALL writes a slot, with the advanced pc (R154). -/
theorem exec_stack_le (hpc : s.pc.toNat ≤ 0x1000) (hstack : ∀ k : Hex, s.stack[k].toNat ≤ 0x1000) (k : Hex) :
    t.stack[k].toNat ≤ 0x1000 := by
  by_cases hm : Part.stack ∈ i.writes
  case neg =>
    have stack : t.stack = s.stack := (effect_of_exec he).same hm (by decide)
    rw [stack]
    exact hstack k
  case pos =>
    cases i <;> simp [Instr.writes] at hm
    case call nnn =>
      cases he
      by_cases h : s.sp.val < 16
      · rw [s.pushThenJump_room _ h, Fin.getElem_fin, Vector.getElem_set]
        split
        · exact hpc
        · exact hstack k
      · rw [s.pushThenJump_full _ h]
        exact hstack k

/-- Only DRW raises DrawWhilePending, and not in a Running engine (R257). -/
theorem exec_fault_ne_drawWhilePending (hw : s.wait = .running)
    (hf : ∀ r, s.fault = some r → r.kind ≠ .drawWhilePending) :
    ∀ r, t.fault = some r → r.kind ≠ .drawWhilePending := by
  intro r hr
  by_cases hm : FaultKind.drawWhilePending ∈ i.faultKinds
  case neg =>
    obtain same | ⟨r', hk, _, rfl⟩ := (effect_of_exec he).fault_cases (fault_notMem_writes i)
    · exact hf r (same ▸ hr)
    · cases hr
      exact fun e => hm (e ▸ hk)
  case pos =>
    cases i <;> simp [Instr.faultKinds] at hm
    case draw x y n =>
      obtain ⟨_, rfl⟩ | rfl | rfl := exec_draw_of_running he hw
      · exact hf r hr
      · exact hf r hr
      · cases hr
        exact FaultKind.noConfusion

/-- Only LD Vx,K and DRW suspend the engine, and they stand just before pc (R33, R74). -/
theorem exec_suspensionOk (hw : s.wait = .running) (h2 : 2 ≤ s.pc.toNat) (hpc : s.pc.toNat ≤ 0x1000)
    (hword : s.wordAt (s.pc.toNat - 2) = encodeWord i) : t.SuspensionOk := by
  by_cases hm : Part.wait ∈ i.writes
  case neg => exact State.suspensionOk_of_running (Eq.trans ((effect_of_exec he).same hm (by decide)) hw)
  case pos =>
    cases i <;> simp [Instr.writes] at hm
    case waitKey x =>
      cases he
      exact (State.suspensionOk_waitingForKey rfl).mpr ⟨h2, hpc, hword, fun _ e => nomatch e⟩
    case draw x y n =>
      obtain ⟨hq, rfl⟩ | rfl | rfl := exec_draw_of_running he hw
      · exact (State.suspensionOk_waitingForDisplayRefresh rfl).mpr ⟨h2, hpc, hword, hq⟩
      · exact State.suspensionOk_of_running hw
      · exact State.suspensionOk_of_running hw

end instructions

/-- An instruction that stands at pc - 2, executed by a Running engine. -/
theorem exec_inv {i : Instr} {s t : State} (he : exec i s = .next t) (h : s.Inv) (hw : s.wait = .running)
    (h2 : 2 ≤ s.pc.toNat) (hpc : s.pc.toNat ≤ 0x1000)
    (hword : s.wordAt (s.pc.toNat - 2) = encodeWord i) : t.Inv where
  memory := exec_memory_wf he h.memory
  glyphs := by
    have cfg : t.cfg = s.cfg := (effect_of_exec he).same (notMem_writes i).2.1 (by decide)
    rw [cfg]
    exact h.glyphs
  pc := exec_pc_le he hpc h.stack
  stack := exec_stack_le he hpc h.stack
  suspension := exec_suspensionOk he hw h2 hpc hword
  fault := exec_fault_ne_drawWhilePending he hw h.fault

/-! ### The host calls keep the invariant -/

section hostCalls
variable {s : State}

theorem State.Inv.unlessHalted (h : s.Inv) {act : State → State} (ha : s.fault = none → (act s).Inv) :
    (s.unlessHalted act).Inv := by
  cases hf : s.fault with
  | some r => rwa [s.unlessHalted_halted act hf]
  | none => rw [s.unlessHalted_working act hf]; exact ha hf

theorem State.Inv.finishDraw (h : s.Inv) : s.finishDraw.Inv := by
  obtain ⟨x, y, n, _, ⟨_, e⟩ | ⟨_, e⟩⟩ | ⟨_, e⟩ := s.finishDraw_cases <;> rw [e]
  · exact h.of_unchanged (State.suspensionOk_of_running rfl) rfl
      (((unchanged_paint s x y n).trans (unchanged_setWait _ .running)).mono (by decide))
  · exact h.raise (by decide)
  · exact h

theorem State.Inv.frameTick (h : s.Inv) : s.frameTick.Inv :=
  h.unlessHalted fun _ => h.decrementTimers.finishDraw

/-- A new keypad alone matters only to a latched key, which has to be down in it. -/
theorem State.Inv.withKeys (h : s.Inv) (keys : Vector Bool 16)
    (hk : ∀ x j, s.wait = .waitingForKey x (some j) → keys[j] = true) : { s with keys := keys }.Inv := by
  refine h.of_unchanged ?_ rfl ((unchanged_but_keys s keys).mono (by decide))
  obtain hw | ⟨x, l, hw⟩ | ⟨x, y, n, hw⟩ := s.wait.running_or_waiting
  · exact State.suspensionOk_of_running hw
  · obtain ⟨h2, hpc, hword, latched⟩ := (State.suspensionOk_waitingForKey hw).mp h.suspension
    exact (State.suspensionOk_waitingForKey (s := { s with keys := keys }) hw).mpr
      ⟨h2, hpc, hword, fun j hl => ⟨(latched j hl).1, hk x j (hl ▸ hw)⟩⟩
  · exact (State.suspensionOk_waitingForDisplayRefresh (s := { s with keys := keys }) hw).mpr
      ((State.suspensionOk_waitingForDisplayRefresh hw).mp h.suspension)

/-- A press in a key wait puts the key into the register and into KEYS (R135). -/
theorem State.Inv.keyPress (h : s.Inv) (k : Hex) : (s.keyPress k).Inv := by
  refine h.unlessHalted fun _ => ?_
  obtain ⟨x, l, hw, e⟩ | ⟨hw, e⟩ := State.latchKey_cases { s with keys := s.keys.set k true } k <;> rw [e]
  · obtain ⟨h2, hpc, hword, _⟩ := (State.suspensionOk_waitingForKey (s := s) hw).mp h.suspension
    have down : (s.keys.set k true)[k] = true := (getElem_keys_set s.keys k k true).trans (if_pos rfl)
    refine h.of_unchanged ((State.suspensionOk_waitingForKey rfl).mpr
      ⟨h2, hpc, hword, fun j hl => ?_⟩) rfl
      (((unchanged_but_keys s _).trans ((unchanged_setV _ x _).trans (unchanged_setWait _ _))).mono
        (by decide))
    cases hl
    exact ⟨State.getV_setV_self _ x _, down⟩
  · exact h.withKeys _ fun x j hw' => absurd hw' (hw x (some j))

/-- A release that is not the latched key's leaves the latched key down (R136). -/
theorem State.Inv.keyRelease (h : s.Inv) (k : Hex) : (s.keyRelease k).Inv := by
  refine h.unlessHalted fun _ => ?_
  obtain ⟨x, hw, e⟩ | ⟨hw, e⟩ := State.endKeyWait_cases { s with keys := s.keys.set k false } k <;> rw [e]
  · exact h.of_unchanged (State.suspensionOk_of_running rfl) rfl
      (((unchanged_but_keys s _).trans (unchanged_setWait _ _)).mono (by decide))
  · refine h.withKeys _ fun x j hw' => ?_
    obtain ⟨_, _, _, latched⟩ := (State.suspensionOk_waitingForKey hw').mp h.suspension
    have other : j ≠ k := fun e => hw x (e ▸ hw')
    rw [getElem_keys_set, if_neg other]
    exact (latched j rfl).2

theorem State.Inv.loadProgram (h : s.Inv) (image : List Byte) : (s.loadProgram image).Inv := by
  by_cases hl : image.length ≤ maxProgram
  · rw [s.loadProgram_of_fits hl]
    exact
      { memory := Memory.wf_load h.memory hl
        glyphs := h.glyphs
        pc := (by decide : (BitVec.ofNat 16 programBase).toNat ≤ 0x10FE)
        stack := fun k => by rw [Fin.getElem_fin]; simp [State.construct]
        suspension := State.suspensionOk_of_running rfl
        fault := fun _ hr => nomatch hr }
  · rw [s.loadProgram_of_tooLarge (Nat.not_le.mp hl)]
    exact h.raise (by decide)

end hostCalls

/-! ### The obligations -/

/-- Settles O49. -/
theorem resetStateHasTheInvariant : Obligations.ResetStateHasTheInvariant where
  memory := ⟨.nil, by simp [State.reset, State.construct]⟩
  glyphs := by decide
  pc := by decide
  stack := by decide
  suspension := State.suspensionOk_of_running rfl
  fault := fun _ hr => nomatch hr

/-- Settles O50, by the cases of a step. A cycle executes an instruction that stands just before the advanced
pc, because its word is the encoding of what the word decodes to (O2). -/
theorem everyStepKeepsTheInvariant : Obligations.EveryStepKeepsTheInvariant := by
  intro s t h ht
  obtain rfl | ⟨kind, info, a, hk, rfl⟩ | ⟨hf, hw, hp, i, hd, he⟩ | rfl | ⟨k, rfl⟩ | ⟨k, rfl⟩ |
    ⟨image, rfl⟩ := step_cases s ht
  case inr.inr.inl =>
    have pc : s.takeCall.advancePc.pc.toNat = s.pc.toNat + 2 :=
      (BitVec.toNat_add ..).trans (Nat.mod_eq_of_lt (by simp; omega))
    have inv : s.takeCall.advancePc.Inv :=
      ⟨h.memory, h.glyphs, by omega, h.stack, State.suspensionOk_of_running hw, h.fault⟩
    refine exec_inv he inv hw (by omega) (by omega) ?_
    rw [pc, Nat.add_sub_cancel, (decodeWord_encodesTo _ i hd).1]
    rfl
  · exact h.takeCall
  · exact h.takeCall.raise (by rcases hk with rfl | rfl <;> decide)
  · exact h.takeCall.frameTick
  · exact h.takeCall.keyPress k
  · exact h.takeCall.keyRelease k
  · exact h.takeCall.loadProgram image

/-- Settles O58: the parameters are construction's; GLYPHS is legal by the invariant. -/
theorem resetStateHasTheDefaultParameters : Obligations.ResetStateHasTheDefaultParameters :=
  ⟨rfl, rfl, rfl, rfl, rfl, rfl, rfl, rfl, rfl, rfl, resetStateHasTheInvariant.glyphs⟩

end Sys2Proof.Machine
end

section
/-! PROOF. Obligations O43 and O55: what does not depend on a quirk (10_state.md R40, R42), and that a draw
put off to the tick is the draw done at once (70_reset_and_hazards.md R347). Replacing the quirk record
commutes with each operation that an instruction is made of, under no condition or under agreement on the one
field that the operation reads. -/

namespace Sys2Proof.Machine

/-! ### The scan reads the framebuffer, I, memory and the edge quirk -/

theorem State.scanRows_congr {s t : State} (hfb : t.fb = s.fb) (hi : t.i = s.i)
    (hq : t.cfg.quirks.spriteEdges = s.cfg.quirks.spriteEdges) (hm : ∀ a, t.readByte a = s.readByte a)
    (bx by_ n : Nat) : t.scanRows bx by_ n = s.scanRows bx by_ n := by
  induction n with
  | zero => rw [State.scanRows, State.scanRows, hfb]
  | succ n ih => rw [State.scanRows, State.scanRows, ih, hi, hq, hm]

/-- The timers and WAIT do not enter a draw, so it may be done before the tick or in it. -/
theorem State.tickedPaint_eq (s : State) (x y n : Hex) (w w' : Wait) :
    ((s.setWait w).decrementTimers.paint x y n).setWait w' =
      ((s.setWait w').paint x y n).decrementTimers := by
  have scan := State.scanRows_congr (s := s.setWait w') (t := (s.setWait w).decrementTimers) rfl rfl rfl
    (fun _ => rfl)
  simp only [State.paint, scan]
  rfl

/-! ### The operations under a replaced quirk record -/

section operations
variable (s : State) (q : Quirks)

theorem State.skipIf_withQuirks (c : Bool) : (s.withQuirks q).skipIf c = (s.skipIf c).withQuirks q := by
  cases c <;> rfl

theorem State.popThenJump_withQuirks : (s.withQuirks q).popThenJump = s.popThenJump.withQuirks q := by
  by_cases h : 0 < s.sp.val
  · rw [s.popThenJump_entry h, (s.withQuirks q).popThenJump_entry h]; rfl
  · rw [s.popThenJump_empty h, (s.withQuirks q).popThenJump_empty h]; rfl

theorem State.pushThenJump_withQuirks (a : Word) :
    (s.withQuirks q).pushThenJump a = (s.pushThenJump a).withQuirks q := by
  by_cases h : s.sp.val < 16
  · rw [s.pushThenJump_room a h, (s.withQuirks q).pushThenJump_room a h]; rfl
  · rw [s.pushThenJump_full a h, (s.withQuirks q).pushThenJump_full a h]; rfl

theorem State.withinRange_withQuirks (m : Nat) {act : State → State}
    (h : act (s.withQuirks q) = (act s).withQuirks q) :
    (s.withQuirks q).withinRange m act = (s.withinRange m act).withQuirks q := by
  obtain ⟨hr, e⟩ | ⟨hr, e⟩ := s.withinRange_cases m act <;> rw [e]
  · rw [State.withinRange_ok (s.withQuirks q) hr, h]
  · rw [State.withinRange_fault (s.withQuirks q) hr]; rfl

variable {s q}

theorem State.setLogicResult_withQuirks (h : s.cfg.quirks.resetVfOnLogic = q.resetVfOnLogic) (x : Hex)
    (b : Byte) : (s.withQuirks q).setLogicResult x b = (s.setLogicResult x b).withQuirks q := by
  have hq : (s.withQuirks q).cfg.quirks.resetVfOnLogic = s.cfg.quirks.resetVfOnLogic := h.symm
  rw [State.setLogicResult, State.setLogicResult, hq]
  split <;> rfl

theorem State.bumpIndex_withQuirks (h : s.cfg.quirks.indexIncrement = q.indexIncrement) :
    (s.withQuirks q).bumpIndex = s.bumpIndex.withQuirks q := by
  have hq : (s.withQuirks q).cfg.quirks.indexIncrement = s.cfg.quirks.indexIncrement := h.symm
  rw [State.bumpIndex, State.bumpIndex, hq]
  split <;> rfl

theorem State.storeBlock_withQuirks (h : s.cfg.quirks.indexIncrement = q.indexIncrement) (i0 n : Nat) :
    (s.withQuirks q).storeBlock i0 n = (s.storeBlock i0 n).withQuirks q := by
  induction n with
  | zero => rfl
  | succ n ih =>
    rw [State.storeBlock, State.storeBlock, ih]
    refine Eq.trans ?_ (State.bumpIndex_withQuirks ?_)
    · rfl
    · rw [State.writeByte_cfg, State.storeBlock_cfg, h]

theorem State.loadBlock_withQuirks (h : s.cfg.quirks.indexIncrement = q.indexIncrement) (i0 n : Nat) :
    (s.withQuirks q).loadBlock i0 n = (s.loadBlock i0 n).withQuirks q := by
  induction n with
  | zero => rfl
  | succ n ih =>
    rw [State.loadBlock, State.loadBlock, ih]
    refine Eq.trans ?_ (State.bumpIndex_withQuirks ?_)
    · rfl
    · rw [State.setV_cfg, State.loadBlock_cfg, h]

theorem State.paint_withQuirks (h : s.cfg.quirks.spriteEdges = q.spriteEdges) (x y n : Hex) :
    (s.withQuirks q).paint x y n = (s.paint x y n).withQuirks q := by
  have scan := State.scanRows_congr (s := s) (t := s.withQuirks q) rfl rfl h.symm (fun _ => rfl)
  simp only [State.paint, scan]
  rfl

theorem State.shiftSource_withQuirks (h : s.cfg.quirks.shiftSource = q.shiftSource) (x y : Hex) :
    (s.withQuirks q).shiftSource x y = s.shiftSource x y := by
  have hq : (s.withQuirks q).cfg.quirks.shiftSource = s.cfg.quirks.shiftSource := h.symm
  rw [State.shiftSource, State.shiftSource, hq]
  rfl

theorem State.jumpRegister_withQuirks (h : s.cfg.quirks.jumpRegister = q.jumpRegister)
    (nnn : BitVec 12) : (s.withQuirks q).jumpRegister nnn = s.jumpRegister nnn := by
  have hq : (s.withQuirks q).cfg.quirks.jumpRegister = s.cfg.quirks.jumpRegister := h.symm
  rw [State.jumpRegister, State.jumpRegister, hq]

end operations

/-! ### The instructions that are not one operation -/

section instructions
variable (s : State) (q : Quirks) (x y n : Hex)

/-- DRW met while a draw is pending (R257). -/
theorem exec_draw_of_pending {s : State} {x y n a b c : Hex}
    (hw : s.wait = .waitingForDisplayRefresh a b c) : exec (.draw x y n) s =
    .next (s.raiseExec .drawWhilePending (.value (s.pc - 2).toNat)) := by
  obtain ⟨_, he⟩ | ⟨notPending, _⟩ | ⟨notPending, _⟩ := execDraw_cases x y n s
  · exact he
  all_goals exact absurd hw (notPending a b c)

/-- DRW without `display_wait`, its bytes in memory (R252). -/
theorem exec_draw_of_immediateFits {s : State} {x y n : Hex}
    (hw : ∀ a b c, s.wait ≠ .waitingForDisplayRefresh a b c) (hq : s.cfg.quirks.displayWait = false)
    (hr : n = 0 ∨ s.i.toNat + n.val - 1 < 4096) : exec (.draw x y n) s = .next (s.paint x y n) := by
  rw [exec_draw_of_immediate hw hq, State.drawSprite, State.withinRange_of_spriteFits _ hr]

/-- An instruction's answers, as states, determine what replacing the quirk record does. -/
theorem exec_withQuirks_of_next {i : Instr} {s t u : State} {q : Quirks}
    (he : exec i s = .next t) (he' : exec i (s.withQuirks q) = .next u) (h : u = t.withQuirks q) :
    exec i (s.withQuirks q) = replaceQuirks q (exec i s) := by
  rw [he, he', h, replaceQuirks]

theorem exec_sysCall_withQuirks (nnn : BitVec 12) :
    exec (.sysCall nnn) (s.withQuirks q) = replaceQuirks q (exec (.sysCall nnn) s) := by
  cases h : s.cfg.sysPolicy with
  | fault => exact exec_withQuirks_of_next (exec_sysCall_of_fault s nnn h) (exec_sysCall_of_fault _ nnn h) rfl
  | nop => exact exec_withQuirks_of_next (exec_sysCall_of_nop s nnn h) (exec_sysCall_of_nop _ nnn h) rfl

theorem exec_addIndex_withQuirks :
    exec (.addIndex x) (s.withQuirks q) = replaceQuirks q (exec (.addIndex x) s) := by
  by_cases h : s.i.toNat + (s.getV x).toNat ≤ 0xFFFF
  · exact exec_withQuirks_of_next (exec_addIndex_of_le s x h) (exec_addIndex_of_le (s.withQuirks q) x h) rfl
  · have h' := Nat.not_le.mp h
    cases hm : s.cfg.indexOverflow with
    | fault =>
      exact exec_withQuirks_of_next (exec_addIndex_of_fault s x h' hm)
        (exec_addIndex_of_fault (s.withQuirks q) x h' hm) rfl
    | wrap =>
      exact exec_withQuirks_of_next (exec_addIndex_of_wrap s x h' hm)
        (exec_addIndex_of_wrap (s.withQuirks q) x h' hm) rfl

theorem exec_draw_withQuirks (hd : s.cfg.quirks.displayWait = q.displayWait)
    (he : s.cfg.quirks.spriteEdges = q.spriteEdges) :
    exec (.draw x y n) (s.withQuirks q) = replaceQuirks q (exec (.draw x y n) s) := by
  obtain ⟨⟨a, b, c, hw⟩, e⟩ | ⟨hw, hq, e⟩ | ⟨hw, hq, e⟩ := execDraw_cases x y n s
  · exact exec_withQuirks_of_next e (exec_draw_of_pending (s := s.withQuirks q) hw) rfl
  · exact exec_withQuirks_of_next e (exec_draw_of_deferred (s := s.withQuirks q) hw (hd.symm.trans hq)) rfl
  · exact exec_withQuirks_of_next e (exec_draw_of_immediate (s := s.withQuirks q) hw (hd.symm.trans hq))
      (s.withinRange_withQuirks q _ (State.paint_withQuirks he x y n))

end instructions

/-! ### The obligations -/

/-- Settles O55: by the operation that each instruction is. -/
theorem quirksAreReadOnlyWhereNamed : Obligations.QuirksAreReadOnlyWhereNamed := by
  intro i s q h
  cases i with
  | clearScreen | jump | loadImm | addImm | move | addReg | sub | subReverse | random | loadIndex
  | loadGlyph | loadDelay | waitKey | setDelay | setSound => rfl
  | skipEqImm | skipNeImm | skipEqReg | skipNeReg | skipKeyPressed | skipKeyNotPressed =>
    exact congrArg _ (s.skipIf_withQuirks q _)
  | ret => exact congrArg _ (s.popThenJump_withQuirks q)
  | call nnn => exact congrArg _ (s.pushThenJump_withQuirks q _)
  | sysCall nnn => exact exec_sysCall_withQuirks s q nnn
  | orReg | andReg | xorReg => exact congrArg _ (State.setLogicResult_withQuirks h _ _)
  | shiftRight x y => rw [exec_shiftRight, exec_shiftRight, State.shiftSource_withQuirks h]; rfl
  | shiftLeft x y => rw [exec_shiftLeft, exec_shiftLeft, State.shiftSource_withQuirks h]; rfl
  | jumpOffset nnn => rw [exec_jumpOffset, exec_jumpOffset, State.jumpRegister_withQuirks h]; rfl
  | addIndex x => exact exec_addIndex_withQuirks s q x
  | storeBcd x => exact congrArg _ (s.withinRange_withQuirks q _ rfl)
  | storeRegisters x => exact congrArg _ (s.withinRange_withQuirks q _ (State.storeBlock_withQuirks h _ _))
  | loadRegisters x => exact congrArg _ (s.withinRange_withQuirks q _ (State.loadBlock_withQuirks h _ _))
  | draw x y n => exact exec_draw_withQuirks s q x y n h.1 h.2

/-- Settles O43. -/
theorem deferredDrawEqualsImmediateDraw : Obligations.DeferredDrawEqualsImmediateDraw := by
  intro x y n s q hf hw hq hr
  have notPending : ∀ a b c, s.wait ≠ .waitingForDisplayRefresh a b c := by simp [hw]
  have deferred := exec_draw_of_deferred (x := x) (y := y) (n := n) notPending (by rw [hq])
  have immediate := exec_draw_of_immediateFits (s := s.withQuirks { q with displayWait := false })
    (x := x) (y := y) notPending rfl hr
  have painted := State.paint_withQuirks (s := s) (q := { q with displayWait := false })
    (by rw [hq]) x y n
  have resumed : s.setWait .running = s := by rw [← hw]; rfl
  rw [painted] at immediate
  refine ⟨_, _, deferred, immediate, ?_, ?_⟩
  · rw [State.frameTick_of_pendingFits (s.setWait_wait _) hf hr, State.tickedPaint_eq, resumed,
      State.frameTick_of_notPending (s := (s.paint x y n).withQuirks _) hf notPending]
    rfl
  · rw [State.frameTick_of_pendingFits (s.setWait_wait _) hf hr, State.setWait_wait]

end Sys2Proof.Machine
end

section
/-! PROOF. Obligations O16, O24, O31, O34, O35 and O37: RND, LD Vx,K and DRW on a pending draw, and the three
pairs of instructions that undo each other: CALL and RET (41_control_flow.md R152, R154), a block store and a
block load (43_index_memory.md R226, R227), a draw and the same draw (44_display.md R253, R256). -/

namespace Sys2Proof.Machine

/-! ### CALL and RET -/

section callAndRet
variable (s : State)

theorem unchanged_but_stack (stack : Vector Word 16) : Unchanged s { s with stack := stack } [.stack] :=
  Unchanged.drop (p := .sp) (Unchanged.drop (p := .pc)
    ((unchanged_but_stack_sp_pc s stack s.sp s.pc).mono (by decide)) rfl) rfl

/-- RET takes back all of a CALL but the slot that it wrote. -/
theorem exec_ret_after_call (a : Word) (h : s.sp.val < 16) : exec .ret { s with
      stack := s.stack.set s.sp.val s.pc, sp := ⟨s.sp.val + 1, by omega⟩, pc := a } =
    .next { s with stack := s.stack.set s.sp.val s.pc } := by
  rw [exec_ret_of_entry _ (Nat.succ_pos _)]
  simp

end callAndRet

/-! ### The same draw again -/

section drawTwice
variable {s : State} {x y n : Hex}

/-- A framebuffer is its pixels. -/
theorem Framebuffer.ext_pixel {a b : Framebuffer} (h : ∀ px py, a.pixel px py = b.pixel px py) : a = b :=
  Vector.ext fun py hpy => Vector.ext fun px hpx => h ⟨px, hpx⟩ ⟨py, hpy⟩

/-- A draw leaves what the sprite covers: it writes no register but VF, which holds no coordinate here. -/
theorem covers_paint (hx : x ≠ 15) (hy : y ≠ 15) (px : Fin 64) (py : Fin 32) :
    Covers (s.paint x y n) x y n px py ↔ Covers s x y n px py := by
  obtain ⟨_, _, _, registers⟩ := s.drawn_paint x y n
  have vx : (s.paint x y n).getV x = s.getV x := registers x (by simpa using hx)
  have vy : (s.paint x y n).getV y = s.getV y := registers y (by simpa using hy)
  rw [Covers, Covers, vx, vy]
  rfl

/-- After a draw, the covered pixels that are on are those that were off. -/
theorem covered_on_paint_iff (hx : x ≠ 15) (hy : y ≠ 15) :
    (∃ px py, Covers (s.paint x y n) x y n px py ∧ (s.paint x y n).fb.pixel px py = true) ↔
      ∃ px py, Covers s x y n px py ∧ s.fb.pixel px py = false := by
  obtain ⟨pixels, _⟩ := s.drawn_paint x y n
  refine exists_congr fun px => exists_congr fun py => ?_
  rw [covers_paint hx hy]
  refine and_congr_right fun hc => ?_
  rw [(pixels px py).1 hc, Bool.not_eq_true']

/-- Each covered pixel is turned over twice. -/
theorem fb_paint_paint (hx : x ≠ 15) (hy : y ≠ 15) : ((s.paint x y n).paint x y n).fb = s.fb := by
  obtain ⟨first, _⟩ := s.drawn_paint x y n
  obtain ⟨second, _⟩ := (s.paint x y n).drawn_paint x y n
  refine Framebuffer.ext_pixel fun px py => ?_
  by_cases hc : Covers s x y n px py
  · rw [(second px py).1 ((covers_paint hx hy px py).mpr hc), (first px py).1 hc, Bool.not_not]
  · rw [(second px py).2 (mt (covers_paint hx hy px py).mp hc), (first px py).2 hc]

end drawTwice

/-! ### The obligations -/

/-- Settles O16. -/
theorem returnUndoesCall : Obligations.ReturnUndoesCall := by
  intro nnn s h
  refine ⟨_, _, exec_call_of_room s nnn h, exec_ret_after_call s _ h, rfl, rfl, fun j hj => ?_,
    unchanged_but_stack s _⟩
  exact Vector.getElem_set_ne h j.isLt (Ne.symm hj)

/-- Settles O31: the load reads, at each register's address, the byte that the store put there. -/
theorem loadRegistersUndoesStoreRegisters : Obligations.LoadRegistersUndoesStoreRegisters := by
  intro x s others hr
  refine ⟨_, _, exec_of_inRange (exec_storeRegisters s x) hr, exec_of_inRange (exec_loadRegisters _ x) hr,
    fun k hk => ?_⟩
  have inBlock : k.val < x.val + 1 := Nat.lt_succ_of_le hk
  rw [State.getV_loadBlock _ _ _ x.isLt, if_pos inBlock]
  exact s.readByte_storeBlock_register _ _ k inBlock

/-- Settles O34: the second draw covers what the first one covered and finds it turned over. -/
theorem drawingTwiceRestoresTheScreen : Obligations.DrawingTwiceRestoresTheScreen := by
  intro x y n s t hw hq hx hy hr he
  have notPending : ∀ a b c, s.wait ≠ .waitingForDisplayRefresh a b c := by simp [hw]
  cases (exec_draw_of_immediateFits notPending hq hr).symm.trans he
  obtain ⟨_, _, first, _⟩ := s.drawn_paint x y n
  obtain ⟨_, raised, kept, _⟩ := (s.paint x y n).drawn_paint x y n
  rw [covered_on_paint_iff hx hy] at raised kept
  refine ⟨_, exec_draw_of_immediateFits (s := s.paint x y n) notPending hq hr, fb_paint_paint hx hy,
    raised, kept, fun cleared => ⟨first ?_, ?_, ?_⟩⟩
  · simp [cleared]
  · exact fun ⟨px, py, hc⟩ => raised ⟨px, py, hc, cleared px py⟩
  · exact fun none => kept fun ⟨px, py, hc, _⟩ => none ⟨px, py, hc⟩

/-- Settles O24. -/
theorem randomByteIsMasked : Obligations.RandomByteIsMasked := by
  intro x kk s
  refine ⟨decodeWord_random x kk, s.takeRandom.setV x (s.nextRandom &&& kk), rfl,
    State.getV_setV_self _ x _, ?_, rfl, registersUnchanged_setV s.takeRandom x _,
    (unchanged_takeRandom_setV s x _).mono (by decide)⟩
  rw [State.getV_setV_self, BitVec.and_assoc, BitVec.and_not_self]
  exact BitVec.and_zero

/-- Settles O35. -/
theorem drawWhilePendingFaults : Obligations.DrawWhilePendingFaults := fun _ _ _ _ _ _ s hw =>
  ⟨_, exec_draw_of_pending hw, s.raiseExec_raises _ _⟩

/-- Settles O37. -/
theorem waitKeySuspends : Obligations.WaitKeySuspends := fun x s =>
  ⟨decodeWord_waitKey x, _, rfl, s.setWait_wait _, unchanged_setWait s _⟩

end Sys2Proof.Machine
end
